-- ==== Sys2Proof/Word.lean ====
section
/-! DEFINITION. The words of the CORE (spec 00_scope.md R8): every stored value is an unsigned bit vector of a stated width. -/

namespace Sys2Proof

/-- `u8`: a named register, a memory cell, an immediate or operand-code byte. -/
abbrev Byte := BitVec 8

/-- `u16`: a register pair, SP, an address, the value of a response. -/
abbrev Word16 := BitVec 16

/-- A command word `cmd[31:0]` (30_encoding.md R46). -/
abbrev CmdWord := BitVec 32

/-- The four-bit fields `ra` and `rb` of a command word, and the four stored bits of F. -/
abbrev Nibble := BitVec 4

end Sys2Proof
end

