-- ==== Sys2Proof/Syntax.lean ====
section
/-! DEFINITION. The twenty commands of 30_encoding.md R45, one constructor per row of spec/opcode_table.json.
Name, flag and code operands are the raw fields: "Validation of operand values (names, flags, codes, addresses) is part
of the operation, not of decoding" (R57). -/

namespace Sys2Proof

/-- The eight named registers (10_state.md R11), in the document's order of listing. -/
inductive Reg where
  | A | B | C | D | E | F | H | L
  deriving DecidableEq, Repr

/-- The four flags (10_state.md R14), in the document's order. -/
inductive Flag where
  | Z | S | HC | C
  deriving DecidableEq, Repr

/-- `Name` of R45: an index 0 to 15 standing for a register name (R48); 8 to 15 are unknown names. -/
abbrev NameIx := Nibble

/-- `Flag` of R45: an index 0 to 15 standing for a flag name (R49); 4 to 15 are unknown flags. -/
abbrev FlagIx := Nibble

/-- A `Command` (30_encoding.md R45). -/
inductive Instr where
  | get (n : NameIx)
  | set (n : NameIx) (v : Byte)
  | getPair (hi lo : NameIx)
  | setPair (hi lo : NameIx) (v : Word16)
  | flagShift (f : FlagIx)
  | getFlags
  | getFlag (f : FlagIx)
  | setFlag (f : FlagIx) (b : Bool)
  | operandRegister (code : Byte)
  | add (code : Byte)
  | addc (code : Byte)
  | addcHl
  | addN8 (v : Byte)
  | addHlR16 (v : Word16)
  | addHlSp
  | addSpE8 (e : Byte)
  | spGet
  | spSet (v : Word16)
  | memGet (a : Word16)
  | memSet (a : Word16) (v : Byte)
  deriving DecidableEq, Repr

end Sys2Proof
end

