-- ==== Sys2Proof/WellFormed.lean ====
section
/-! DEFINITION. Which operand values are legal (30_encoding.md R54, its list "the operand values that are illegal are
exactly these"; 70_reset_and_hazards.md R149). An ill-formed command still decodes and still has a meaning: it raises the
fault the spec names (log entry 15). -/

namespace Sys2Proof

/-- The name index is 0 to 7 (R48). -/
def legalName (n : NameIx) : Bool := n.toNat < 8

/-- The flag index is 0 to 3 (R49). -/
def legalFlag (f : FlagIx) : Bool := f.toNat < 4

/-- The operand code is 0 to 7 (R54, for `operand_register`). -/
def legalCode (code : Byte) : Bool := code.toNat < 8

/-- The operand code selects a plain register: 0 to 5 or 7 (R54, for `add` and `addc`). -/
def legalRegisterCode (code : Byte) : Bool := code.toNat < 8 && code.toNat != 6

/-- No operand of the command is one R54 calls illegal. An address is never ill-formed: the memory bound is a check on
the state's memory, not on the encoding. -/
def Instr.wellFormed : Instr → Bool
  | .get n => legalName n
  | .set n _ => legalName n
  | .getPair hi lo => legalName hi && legalName lo
  | .setPair hi lo _ => legalName hi && legalName lo
  | .flagShift f => legalFlag f
  | .getFlags => true
  | .getFlag f => legalFlag f
  | .setFlag f _ => legalFlag f
  | .operandRegister code => legalCode code
  | .add code => legalRegisterCode code
  | .addc code => legalRegisterCode code
  | .addcHl => true
  | .addN8 _ => true
  | .addHlR16 _ => true
  | .addHlSp => true
  | .addSpE8 _ => true
  | .spGet => true
  | .spSet _ => true
  | .memGet _ => true
  | .memSet _ _ => true

end Sys2Proof
end

