-- ==== Sys2Proof/Decode.lean ====
section
/-! DEFINITION. The decoder (30_encoding.md R57), total on every 32-bit word, and the encoder, both from the tables of
R46, R47, R51 and R52. -/

namespace Sys2Proof

/-! ### The fields of a command word (R46) -/

/-- `op`, bits 31:24. -/
def opField (w : CmdWord) : Byte := w.extractLsb' 24 8

/-- `ra`, bits 23:20. -/
def raField (w : CmdWord) : Nibble := w.extractLsb' 20 4

/-- `rb`, bits 19:16. -/
def rbField (w : CmdWord) : Nibble := w.extractLsb' 16 4

/-- `d`, bits 15:0. -/
def dField (w : CmdWord) : Word16 := w.extractLsb' 0 16

/-- `d[7:0]` (R51). -/
def d8Field (w : CmdWord) : Byte := w.extractLsb' 0 8

/-- `d[0]` (R51). -/
def d0Field (w : CmdWord) : Bool := w.getLsbD 0

/-- `{ra, rb}` = `cmd[23:16]`, the data byte of `mem_set` (R51). -/
def dataField (w : CmdWord) : Byte := w.extractLsb' 16 8

/-! ### The decoder -/

/-- R57: the row of R47 that `op` selects, with the fields R52 lists for its format; `none` for a reserved `op`
(0x14 to 0xFF, R54), which is the fault InvalidOperation. -/
def decode (w : CmdWord) : Option Instr :=
  match (opField w).toNat with
  | 0x00 => some (.get (raField w))
  | 0x01 => some (.set (raField w) (d8Field w))
  | 0x02 => some (.getPair (raField w) (rbField w))
  | 0x03 => some (.setPair (raField w) (rbField w) (dField w))
  | 0x04 => some (.flagShift (raField w))
  | 0x05 => some .getFlags
  | 0x06 => some (.getFlag (raField w))
  | 0x07 => some (.setFlag (raField w) (d0Field w))
  | 0x08 => some (.operandRegister (d8Field w))
  | 0x09 => some (.add (d8Field w))
  | 0x0A => some (.addc (d8Field w))
  | 0x0B => some .addcHl
  | 0x0C => some (.addN8 (d8Field w))
  | 0x0D => some (.addHlR16 (dField w))
  | 0x0E => some .addHlSp
  | 0x0F => some (.addSpE8 (d8Field w))
  | 0x10 => some .spGet
  | 0x11 => some (.spSet (dField w))
  | 0x12 => some (.memGet (dField w))
  | 0x13 => some (.memSet (dField w) (dataField w))
  | _ => none

/-! ### The encoder -/

/-- A command word from its four fields, `OO RR DDDD` (R46). -/
def mkWord (op : Byte) (ra rb : Nibble) (d : Word16) : CmdWord :=
  op.setWidth 32 <<< 24 ||| ra.setWidth 32 <<< 20 ||| rb.setWidth 32 <<< 16 ||| d.setWidth 32

/-- The operation number of R47. -/
def Instr.opNumber : Instr → Byte
  | .get _ => 0x00
  | .set _ _ => 0x01
  | .getPair _ _ => 0x02
  | .setPair _ _ _ => 0x03
  | .flagShift _ => 0x04
  | .getFlags => 0x05
  | .getFlag _ => 0x06
  | .setFlag _ _ => 0x07
  | .operandRegister _ => 0x08
  | .add _ => 0x09
  | .addc _ => 0x0A
  | .addcHl => 0x0B
  | .addN8 _ => 0x0C
  | .addHlR16 _ => 0x0D
  | .addHlSp => 0x0E
  | .addSpE8 _ => 0x0F
  | .spGet => 0x10
  | .spSet _ => 0x11
  | .memGet _ => 0x12
  | .memSet _ _ => 0x13

/-- The word of a command, by the formats of R52. Unused fields are zero, as R53 asks of an issuer. -/
def encode (i : Instr) : CmdWord :=
  match i with
  | .get n => mkWord i.opNumber n 0 0
  | .set n v => mkWord i.opNumber n 0 (v.setWidth 16)
  | .getPair hi lo => mkWord i.opNumber hi lo 0
  | .setPair hi lo v => mkWord i.opNumber hi lo v
  | .flagShift f => mkWord i.opNumber f 0 0
  | .getFlags => mkWord i.opNumber 0 0 0
  | .getFlag f => mkWord i.opNumber f 0 0
  | .setFlag f b => mkWord i.opNumber f 0 ((BitVec.ofBool b).setWidth 16)
  | .operandRegister code => mkWord i.opNumber 0 0 (code.setWidth 16)
  | .add code => mkWord i.opNumber 0 0 (code.setWidth 16)
  | .addc code => mkWord i.opNumber 0 0 (code.setWidth 16)
  | .addcHl => mkWord i.opNumber 0 0 0
  | .addN8 v => mkWord i.opNumber 0 0 (v.setWidth 16)
  | .addHlR16 v => mkWord i.opNumber 0 0 v
  | .addHlSp => mkWord i.opNumber 0 0 0
  | .addSpE8 e => mkWord i.opNumber 0 0 (e.setWidth 16)
  | .spGet => mkWord i.opNumber 0 0 0
  | .spSet v => mkWord i.opNumber 0 0 v
  | .memGet a => mkWord i.opNumber 0 0 a
  | .memSet a v => mkWord i.opNumber (v.extractLsb' 4 4) (v.extractLsb' 0 4) a

/-- The bits of a command word that an operation reads: `op` and the fields R52 lists for its format. Of a reserved `op`
only `op` itself is read (R54). -/
def usedBits (op : Byte) : CmdWord :=
  match op.toNat with
  | 0x00 | 0x04 | 0x06 => 0xFFF00000
  | 0x01 => 0xFFF000FF
  | 0x02 => 0xFFFF0000
  | 0x03 | 0x13 => 0xFFFFFFFF
  | 0x07 => 0xFFF00001
  | 0x08 | 0x09 | 0x0A | 0x0C | 0x0F => 0xFF0000FF
  | 0x0D | 0x11 | 0x12 => 0xFF00FFFF
  | _ => 0xFF000000

/-! ### The opcode table's words -/

/-- The command word whose low `nbits` bits are those of `w` and whose bits above are zero. The command port carries one
32-bit word (R46, R58), not bytes, so there is no byte order to choose (log entry 11). -/
def commandOfBits (nbits w : Nat) : CmdWord := BitVec.ofNat 32 (w % 2 ^ nbits)

/-- The instruction the decoder reads from a row's bits, numbered as spec/opcode_table.json numbers them. -/
def decodeTableWord (nbits w : Nat) : Option Instr := decode (commandOfBits nbits w)

end Sys2Proof
end

