-- ==== Sys2Proof/Config.lean ====
section
/-! DEFINITION. The two open parameters of the CORE (92_eei_decisions.md section 3) at the values rule R4 gives them.
Every operation that depends on one takes it as an argument, so both values of each can be spoken of. -/

namespace Sys2Proof.Config

/-- `MEM_CELLS` (R4, R30; 90_conflicts.md C1): 65535 cells, addresses 0x0000 to 0xFFFE. DESIGN CHOICE of the spec, safe (log entry 5). -/
def memCells : Nat := 65535

/-- `ADC_WRAP` (R4, R93): `operand + carry` is one 8-bit wrapping addition. DESIGN CHOICE of the spec, unsafe (log entry 6). -/
def adcWrap : Bool := true

end Sys2Proof.Config
end

