-- ==== Sys2Proof/Machine/State.lean ====
section
/-! DEFINITION. The state of the CORE (10_state.md R10), its ports (30_encoding.md R58) and its reset values (R24). -/

namespace Sys2Proof.Machine

/-- Why the machine would stop with a fault: never. The five faults of the CORE are delivered in the response and the
block accepts the next command (60_exceptions.md R126, R128), so each is a next state (`CoreFault`), and "stuck is not
used: nothing in this block can wait" (93_implementation_defined.md). Nothing raises a stop, so there is no constructor;
the difference from a block that halts at a fault is unsafe (log entry 4). -/
inductive Fault : Type
  deriving DecidableEq, Repr

/-- Why the model would give an instruction no meaning. -/
inductive Refusal where
  /-- Raised only by an arm of `exec` whose instruction has no meaning yet; no arm is left so. Safe: it claims nothing. -/
  | notModelled (mnemonic : String)
  deriving DecidableEq, Repr

/-- The five faults the CORE raises (60_exceptions.md R120). Each is reported in a response. -/
inductive CoreFault where
  /-- Raised by `get`, `set`, `get_pair`, `set_pair` for a name index 8 to 15 (R121). -/
  | unknownRegister
  /-- Raised by `flag_shift`, `get_flag`, `set_flag` for a flag index 4 to 15 (R122). -/
  | unknownFlag
  /-- Raised by `operand_register`, `add`, `addc` for a code 8 to 255, and by `add`, `addc` for code 6 (R123). -/
  | invalidOperandCode
  /-- Raised by `addc_hl`, `mem_get`, `mem_set` for an address at or above MEM_CELLS (R124). -/
  | memoryBounds
  /-- Raised by a command word with a reserved `op` (R125). -/
  | invalidOperation
  deriving DecidableEq, Repr

/-- What the block answers to one command (30_encoding.md R55): the fault, if any, and a 16-bit value. -/
structure Response where
  /-- `none` when the operation completed (fault code 0). -/
  fault : Option CoreFault
  /-- The result (R56), or the offending input when there is a fault (R120). -/
  value : Word16
  deriving DecidableEq, Repr

/-- One transaction the host presents (R58). -/
inductive PortEvent where
  /-- An event on the `reset` port. -/
  | reset
  /-- A command word on the `cmd` port. -/
  | cmd (w : CmdWord)
  deriving DecidableEq, Repr

/-- The memory block (R18): (address, byte) pairs in the canonical form `Memory.wf` of Machine/Ops.lean. -/
abbrev Memory := List Host.Cell

/-- The state of the CORE: R10's tuple, and the two ports. -/
structure State where
  /-- x[A], the accumulator. -/
  a : Byte
  /-- x[B]. -/
  b : Byte
  /-- x[C]. -/
  c : Byte
  /-- x[D]. -/
  d : Byte
  /-- x[E]. -/
  e : Byte
  /-- x[H]. -/
  h : Byte
  /-- x[L]. -/
  l : Byte
  /-- F[7:4], the four stored bits of the flag register (R13): bit 3 is Z, bit 2 S, bit 1 HC, bit 0 C. -/
  fHigh : Nibble
  /-- SP (R17). -/
  sp : Word16
  /-- The memory block (R18). -/
  mem : Memory
  /-- The model's own: port events the host has presented and the block has not taken, oldest first (log entry 1). -/
  cmdIn : List PortEvent
  /-- The model's own: the responses given so far, oldest first (log entry 2). -/
  respOut : List Response
  deriving DecidableEq, Repr

/-- The machine right after reset (R24): every register, F, SP and every memory cell zero. No event is pending and no
response has been given (DESIGN CHOICE, log entries 1 and 2). -/
def State.reset : State where
  a := 0
  b := 0
  c := 0
  d := 0
  e := 0
  h := 0
  l := 0
  fHigh := 0
  sp := 0
  mem := []
  cmdIn := []
  respOut := []

end Sys2Proof.Machine
end

