-- ==== Sys2Proof/Machine/Ops.lean ====
section
/-! DEFINITION. The named operations over memory and registers, the pair synthesizer, responding, TAKING A FAULT, and
taking an event from the ports. -/

namespace Sys2Proof.Machine

/-! ### The pair synthesizer -/

/-- `PAIR(hi, lo) = {hi, lo} = (zext_16(hi) << 8) | zext_16(lo)` (40_register_file.md R65). -/
def pair (hi lo : Byte) : Word16 := hi.setWidth 16 <<< 8 ||| lo.setWidth 16

/-- The high byte of `SPLIT(v)`, `v[15:8]` (R66). -/
def highByte (v : Word16) : Byte := v.extractLsb' 8 8

/-- The low byte of `SPLIT(v)`, `v[7:0]` (R66). -/
def lowByte (v : Word16) : Byte := v.extractLsb' 0 8

/-! ### The flag register -/

/-- `F`: the four stored bits over a low nibble that reads as zero (10_state.md R13). -/
def State.flagByte (s : State) : Byte := s.fHigh.setWidth 8 <<< 4

/-- `F <- v`: stores `v[7:4]`; a write to bits 3 to 0 is dropped (R13). -/
def State.writeFlagByte (v : Byte) (s : State) : State := { s with fHigh := v.extractLsb' 4 4 }

/-- `F.Z`, bit 7 of F (R9). -/
def State.flagZ (s : State) : Bool := s.flagByte.getLsbD 7

/-- `F.S`, bit 6 of F (R9). -/
def State.flagS (s : State) : Bool := s.flagByte.getLsbD 6

/-- `F.HC`, bit 5 of F (R9). -/
def State.flagHC (s : State) : Bool := s.flagByte.getLsbD 5

/-- `F.C`, bit 4 of F (R9). -/
def State.flagC (s : State) : Bool := s.flagByte.getLsbD 4

/-! ### The named registers -/

/-- `x[n]`; `x[F]` is F (R9, R10). -/
def State.readReg (r : Reg) (s : State) : Byte :=
  match r with
  | .A => s.a
  | .B => s.b
  | .C => s.c
  | .D => s.d
  | .E => s.e
  | .F => s.flagByte
  | .H => s.h
  | .L => s.l

/-- `x[n] <- v` (R9); a write to F goes through its hardwired low nibble (R13). -/
def State.writeReg (r : Reg) (v : Byte) (s : State) : State :=
  match r with
  | .A => { s with a := v }
  | .B => { s with b := v }
  | .C => { s with c := v }
  | .D => { s with d := v }
  | .E => { s with e := v }
  | .F => s.writeFlagByte v
  | .H => { s with h := v }
  | .L => { s with l := v }

/-- `HL` = `PAIR(x[H], x[L])` (R9). -/
def State.hl (s : State) : Word16 := pair s.h s.l

/-- `HL <- v` (R9). -/
def State.writeHl (v : Word16) (s : State) : State := { s with h := highByte v, l := lowByte v }

/-! ### Memory -/

/-- A fault and the offending input that goes with it: the argument of `raise` (R9). -/
structure Raised where
  /-- Which of the five. -/
  fault : CoreFault
  /-- The `value` column of R120. -/
  value : Word16
  deriving DecidableEq, Repr

/-- What an unlisted cell reads as: its reset content (R24), "0 if none has been written since reset" (R32). -/
def unlistedByte : Byte := 0

/-- The canonical form from address `lo` up, in a block of `cells` cells: addresses strictly rising and below `cells`,
and no entry equal to what an unlisted cell reads as. -/
def Memory.wfFrom (cells lo : Nat) : Memory → Bool
  | [] => true
  | (k, v) :: m => lo ≤ k && k < cells && v != unlistedByte && Memory.wfFrom cells (k + 1) m

/-- The canonical form of the whole block. -/
def Memory.wf (m : Memory) : Bool := Memory.wfFrom Config.memCells 0 m

/-- The content of one cell. -/
def Memory.lookup (m : Memory) (a : Nat) : Byte :=
  match m with
  | [] => unlistedByte
  | (k, v) :: m' => if k = a then v else Memory.lookup m' a

/-- Put `v` into cell `a`, keeping the canonical form: writing the byte an unlisted cell reads as removes the entry. -/
def Memory.update (m : Memory) (a : Nat) (v : Byte) : Memory :=
  match m with
  | [] => if v = unlistedByte then [] else [(a, v)]
  | (k, w) :: m' =>
    if a < k then
      if v = unlistedByte then (k, w) :: m' else (a, v) :: (k, w) :: m'
    else if a = k then
      if v = unlistedByte then m' else (a, v) :: m'
    else (k, w) :: Memory.update m' a v

/-- `MemRead(addr, 1)` (20_memory.md R33) in a block of `cells` cells. -/
def Memory.read (cells : Nat) (m : Memory) (addr : Word16) : Except Raised Byte :=
  if cells ≤ addr.toNat then .error ⟨.memoryBounds, addr⟩ else .ok (m.lookup addr.toNat)

/-- `MemWrite(addr, 1, v)` (R34) in a block of `cells` cells. -/
def Memory.write (cells : Nat) (m : Memory) (addr : Word16) (v : Byte) : Except Raised Memory :=
  if cells ≤ addr.toNat then .error ⟨.memoryBounds, addr⟩ else .ok (m.update addr.toNat v)

/-- `MemRead` of the CORE's block. -/
def State.readMem (addr : Word16) (s : State) : Except Raised Byte := Memory.read Config.memCells s.mem addr

/-- `MemWrite` of the CORE's block. -/
def State.writeMem (addr : Word16) (v : Byte) (s : State) : Except Raised State :=
  match Memory.write Config.memCells s.mem addr v with
  | .ok m => .ok { s with mem := m }
  | .error r => .error r

/-! ### Ending an operation -/

/-- The outcomes of a step of the CORE. -/
abbrev Result := Host.Outcome State Fault Refusal

/-- One response per command, in the same order (R58). -/
def State.answer (r : Response) (s : State) : State := { s with respOut := s.respOut ++ [r] }

/-- `return v` (R9): fault code 0 and the value `v`. -/
def complete (v : Word16) (s : State) : Result := .next (s.answer ⟨none, v⟩)

/-- TAKING A FAULT (60_exceptions.md R126): the response carries the fault and its value and "the state is exactly what
it was before the command". Nothing is saved and control goes nowhere, and there is no return operation (R128, R133). -/
def takeFault (r : Raised) (s : State) : Result := .next (s.answer ⟨some r.fault, r.value⟩)

/-- Go on with a checked operand, or take the fault of the check. Every check stands before the first write (R127). -/
def attempt {α : Type} (x : Except Raised α) (s : State) (k : α → Result) : Result :=
  match x with
  | .ok v => k v
  | .error r => takeFault r s

/-- The 3-bit code of a fault (R55, R120). -/
def CoreFault.code : CoreFault → BitVec 3
  | .unknownRegister => 1
  | .unknownFlag => 2
  | .invalidOperandCode => 3
  | .memoryBounds => 4
  | .invalidOperation => 5

/-- The 3-bit `fault` field of a response (R55). -/
def Response.faultCode (r : Response) : BitVec 3 :=
  match r.fault with
  | none => 0
  | some f => f.code

/-! ### The ports -/

/-- What the block takes from its ports. -/
inductive Fetched where
  /-- No event is pending. -/
  | idle
  /-- A reset event, and the state with it taken. -/
  | reset (s : State)
  /-- A command word, and the state with it taken. -/
  | command (w : CmdWord) (s : State)
  deriving DecidableEq, Repr

/-- The oldest pending event, taken from its port (R58: one transaction at a time, in order). -/
def fetch (s : State) : Fetched :=
  match s.cmdIn with
  | [] => .idle
  | .reset :: rest => .reset { s with cmdIn := rest }
  | .cmd w :: rest => .command w { s with cmdIn := rest }

/-- With no event presented, "the block simply waits for its first command" (R141): nothing changes (log entry 1). -/
def waitForEvent (s : State) : Result := .next s

/-- A reset event puts R10's tuple to its reset values (70_reset_and_hazards.md R140). What the host has still to present
and what it has been answered are not the block's state and stay (log entry 3). -/
def takeReset (s : State) : Result := .next { State.reset with cmdIn := s.cmdIn, respOut := s.respOut }

/-- A command word with a reserved `op` raises `InvalidOperation` with the `op` byte as value (R54, R120, R125). -/
def rejectWord (w : CmdWord) (s : State) : Result :=
  takeFault ⟨.invalidOperation, (opField w).setWidth 16⟩ s

/-- The host presents the command word `w` as the next event (R58). -/
def State.present (w : CmdWord) (s : State) : State := { s with cmdIn := .cmd w :: s.cmdIn }

end Sys2Proof.Machine
end

