-- ==== Sys2Proof/Machine/Operands.lean ====
section
/-! DEFINITION. Every operand form: register names (30_encoding.md R48), flag names (R49), the r8 operand code
(42_operand_decode.md R85, R87), and the immediates (R51), which the decoder hands over as they stand. -/

namespace Sys2Proof.Machine

/-! ### Register names -/

/-- The name index of a register (R48). -/
def regIndex : Reg → NameIx
  | .A => 0
  | .B => 1
  | .C => 2
  | .D => 3
  | .E => 4
  | .F => 5
  | .H => 6
  | .L => 7

/-- The register a name index stands for; 8 to 15 raise `UnknownRegister` with the index as value (R48, R121). -/
def regNamed (n : NameIx) : Except Raised Reg :=
  match n.toNat with
  | 0 => .ok .A
  | 1 => .ok .B
  | 2 => .ok .C
  | 3 => .ok .D
  | 4 => .ok .E
  | 5 => .ok .F
  | 6 => .ok .H
  | 7 => .ok .L
  | _ => .error ⟨.unknownRegister, n.setWidth 16⟩

/-- Both names of a pair, checked in the order `hi`, `lo`: the fault reports the first unknown one (R69, R70, R127). -/
def regsNamed (hi lo : NameIx) : Except Raised (Reg × Reg) :=
  match regNamed hi with
  | .error r => .error r
  | .ok rh =>
    match regNamed lo with
    | .error r => .error r
    | .ok rl => .ok (rh, rl)

/-! ### Flag names -/

/-- The flag index of a flag (R49). -/
def flagIndex : Flag → FlagIx
  | .Z => 0
  | .S => 1
  | .HC => 2
  | .C => 3

/-- The flag an index stands for; 4 to 15 raise `UnknownFlag` with the index as value (R49, R122). -/
def flagNamed (f : FlagIx) : Except Raised Flag :=
  match f.toNat with
  | 0 => .ok .Z
  | 1 => .ok .S
  | 2 => .ok .HC
  | 3 => .ok .C
  | _ => .error ⟨.unknownFlag, f.setWidth 16⟩

/-- The bit of F a flag is: Z 7, S 6, HC 5, C 4 (R77). -/
def flagBit : Flag → Nat
  | .Z => 7
  | .S => 6
  | .HC => 5
  | .C => 4

/-! ### The r8 operand code -/

/-- An outcome of the decode table (R85): `Operand = Register(id) | MemoryIndirectHL`, or invalid. -/
inductive Operand where
  /-- A plain register. -/
  | register (r : Reg)
  /-- The indirect-via-HL marker of code 6. -/
  | memoryIndirectHl
  /-- Codes 8 to 255. -/
  | invalid
  deriving DecidableEq, Repr

/-- `R8DEC(code)` (R85). -/
def r8dec (code : Byte) : Operand :=
  match code.toNat with
  | 0 => .register .B
  | 1 => .register .C
  | 2 => .register .D
  | 3 => .register .E
  | 4 => .register .H
  | 5 => .register .L
  | 6 => .memoryIndirectHl
  | 7 => .register .A
  | _ => .invalid

/-- The response value of the indirect-via-HL marker (R56, R86). -/
def markerValue : Word16 := 0x0010

/-- What `operand_register` answers for a code (R86): the name index, the marker, or `InvalidOperandCode`. -/
def operandName (code : Byte) : Except Raised Word16 :=
  match r8dec code with
  | .register r => .ok ((regIndex r).setWidth 16)
  | .memoryIndirectHl => .ok markerValue
  | .invalid => .error ⟨.invalidOperandCode, code.setWidth 16⟩

/-- `RESOLVE8(code)` (R87): the value of a plain register. Code 6 faults and reads no memory (log entry 9). -/
def resolve8 (code : Byte) (s : State) : Except Raised Byte :=
  match r8dec code with
  | .register r => .ok (s.readReg r)
  | .memoryIndirectHl => .error ⟨.invalidOperandCode, code.setWidth 16⟩
  | .invalid => .error ⟨.invalidOperandCode, code.setWidth 16⟩

end Sys2Proof.Machine
end

