-- ==== Sys2Proof/Machine/Flags.lean ====
section
/-! DEFINITION. The flag encoder and updater (41_flags.md R75, R76), the adders with their half-carry and carry tests
(43_add8.md R90, R93; 44_add16.md R100, R104, R105), and the write of all four flags (R91). Sums are formed at a width that
holds them exactly, as the rules write them. -/

namespace Sys2Proof.Machine

/-! ### Flag bytes -/

/-- `FLAGENC(z, s, hc, c) = (z << 7) | (s << 6) | (hc << 5) | (c << 4)` (R75). -/
def flagEnc (z s hc c : Bool) : Byte :=
  (BitVec.ofBool z).setWidth 8 <<< 7 ||| (BitVec.ofBool s).setWidth 8 <<< 6 |||
    (BitVec.ofBool hc).setWidth 8 <<< 5 ||| (BitVec.ofBool c).setWidth 8 <<< 4

/-- `FLAGUPD(old, sh, b)` (R76). -/
def flagUpd (old : Byte) (sh : Nat) (b : Bool) : Byte :=
  if b then old ||| ((1 : Byte) <<< sh) else old &&& ~~~((1 : Byte) <<< sh)

/-! ### Adders -/

/-- What an adder gives: the result, the half-carry and the carry. -/
structure Sum (w : Nat) where
  res : BitVec w
  hc : Bool
  cy : Bool
  deriving DecidableEq, Repr

/-- `(zext_5(a[3:0]) + zext_5(b[3:0])) > 0xF`: the carry out of bit 3 of `a + b` (R90). -/
def halfCarry4 (a b : Nibble) : Bool := (a.setWidth 5 + b.setWidth 5 : BitVec 5) > 0xF

/-- The half-carry test of two bytes (R90). -/
def halfCarry8 (a b : Byte) : Bool := halfCarry4 (a.extractLsb' 0 4) (b.extractLsb' 0 4)

/-- `(zext_13(a[11:0]) + zext_13(b[11:0])) > 0xFFF`: the carry out of bit 11 of `a + b` (R100). -/
def halfCarry16 (a b : Word16) : Bool :=
  ((a.extractLsb' 0 12).setWidth 13 + (b.extractLsb' 0 12).setWidth 13 : BitVec 13) > 0xFFF

/-- `ADD8(a, b)` (R90). -/
def add8 (a b : Byte) : Sum 8 :=
  let sum9 : BitVec 9 := a.setWidth 9 + b.setWidth 9
  { res := sum9.extractLsb' 0 8, hc := halfCarry8 a b, cy := sum9.getLsbD 8 }

/-- The sum of `addc` and `addc_hl` (R93, R94) under the parameter ADC_WRAP. With `true`, operand and carry are added first
in 8 bits; with `false`, the three-term sum of 92_eei_decisions.md D7. The half-carry ignores the carry-in either way. -/
def addcSum (wrap : Bool) (a b : Byte) (ci : Bool) : Sum 8 :=
  if wrap then
    let t : Byte := b + (BitVec.ofBool ci).setWidth 8
    { res := (add8 a t).res, hc := halfCarry8 a b, cy := (add8 a t).cy }
  else
    let sum10 : BitVec 10 := a.setWidth 10 + b.setWidth 10 + (BitVec.ofBool ci).setWidth 10
    { res := sum10.extractLsb' 0 8, hc := halfCarry8 a b, cy := sum10 > 255 }

/-- `ADD16(a, b)` (R100). -/
def add16 (a b : Word16) : Sum 16 :=
  let sum17 : BitVec 17 := a.setWidth 17 + b.setWidth 17
  { res := sum17.extractLsb' 0 16, hc := halfCarry16 a b, cy := sum17.getLsbD 16 }

/-- `SPADD_NONNEG(sp, e)` (R104): half-carry at bit 3, carry at bit 15. -/
def spAddNonneg (sp : Word16) (e : Byte) : Sum 16 :=
  let sum17 : BitVec 17 := sp.setWidth 17 + e.setWidth 17
  { res := sum17.extractLsb' 0 16
    hc := halfCarry4 (sp.extractLsb' 0 4) (e.extractLsb' 0 4)
    cy := sum17.getLsbD 16 }

/-- `SPADD_NEG(sp, e)` (R105): both tests compare, with "less than or equal". -/
def spAddNeg (sp : Word16) (e : Byte) : Sum 16 :=
  let res : Word16 := sp + e.signExtend 16
  { res := res
    hc := res.extractLsb' 0 4 ≤ sp.extractLsb' 0 4
    cy := res.extractLsb' 0 8 ≤ sp.extractLsb' 0 8 }

/-- The sum of `add_SP_e8` (R103): the branch is chosen by the sign bit of the immediate. -/
def spAdd (sp : Word16) (e : Byte) : Sum 16 :=
  if e.getLsbD 7 = false then spAddNonneg sp e else spAddNeg sp e

/-! ### The contract of the ADD family (R91) -/

/-- `F <- FLAGENC(result == 0, false, hc, c)` (R91): all four flags, the old ones do not survive. -/
def State.writeSumFlags {w : Nat} (o : Sum w) (s : State) : State :=
  s.writeFlagByte (flagEnc (o.res == 0) false o.hc o.cy)

/-- The end of an addition into A: flags, result, `return 0`. -/
def finishA (o : Sum 8) (s : State) : Result := complete 0 { s.writeSumFlags o with a := o.res }

/-- The end of an addition into HL. -/
def finishHl (o : Sum 16) (s : State) : Result := complete 0 ((s.writeSumFlags o).writeHl o.res)

/-- The end of an addition into SP. -/
def finishSp (o : Sum 16) (s : State) : Result := complete 0 { s.writeSumFlags o with sp := o.res }

end Sys2Proof.Machine
end

