-- ==== Sys2Proof/Machine/Add16.lean ====
section
/-! DEFINITION. The 16-bit additions (44_add16.md R101 to R103). -/

namespace Sys2Proof.Machine

/-- `add_HL_r16(v)` (R101). -/
def execAddHlR16 (v : Word16) (s : State) : Result := finishHl (add16 s.hl v) s

/-- `add_HL_SP()` (R102). -/
def execAddHlSp (s : State) : Result := finishHl (add16 s.hl s.sp) s

/-- `add_SP_e8(e)` (R103). -/
def execAddSpE8 (e : Byte) (s : State) : Result := finishSp (spAdd s.sp e) s

end Sys2Proof.Machine
end

