-- ==== Sys2Proof/Machine/Add8.lean ====
section
/-! DEFINITION. The additions into the accumulator (43_add8.md R92 to R95). Operands are read from the state before the
operation, so the carry-in is the old carry and code 7 reads the old A (R144, R145, R88). -/

namespace Sys2Proof.Machine

/-- `add(code)` (R92). -/
def execAdd (code : Byte) (s : State) : Result :=
  attempt (resolve8 code s) s fun b => finishA (add8 s.a b) s

/-- `addc(code)` (R93). -/
def execAddc (code : Byte) (s : State) : Result :=
  attempt (resolve8 code s) s fun b => finishA (addcSum Config.adcWrap s.a b s.flagC) s

/-- `addc_hl()` (R94). -/
def execAddcHl (s : State) : Result :=
  attempt (s.readMem s.hl) s fun b => finishA (addcSum Config.adcWrap s.a b s.flagC) s

/-- `add_n8(v)` (R95). -/
def execAddN8 (v : Byte) (s : State) : Result := finishA (add8 s.a v) s

end Sys2Proof.Machine
end

