-- ==== Sys2Proof/Machine/FlagAccess.lean ====
section
/-! DEFINITION. The flag operations (41_flags.md R77 to R80). -/

namespace Sys2Proof.Machine

/-- `flag_shift(f)` (R77). -/
def execFlagShift (f : FlagIx) (s : State) : Result :=
  attempt (flagNamed f) s fun g => complete (BitVec.ofNat 16 (flagBit g)) s

/-- `get_flags()` (R78). -/
def execGetFlags (s : State) : Result := complete (s.flagByte.setWidth 16) s

/-- `get_flag(f)` (R79). -/
def execGetFlag (f : FlagIx) (s : State) : Result :=
  attempt (flagNamed f) s fun g => complete ((BitVec.ofBool (s.flagByte.getLsbD (flagBit g))).setWidth 16) s

/-- `set_flag(f, b)` (R80). -/
def execSetFlag (f : FlagIx) (b : Bool) (s : State) : Result :=
  attempt (flagNamed f) s fun g => complete 0 (s.writeFlagByte (flagUpd s.flagByte (flagBit g) b))

end Sys2Proof.Machine
end

