-- ==== Sys2Proof/Machine/HostAccess.lean ====
section
/-! DEFINITION. The spec's own host-access operations (45_host_access.md R110 to R113; log entry 13). -/

namespace Sys2Proof.Machine

/-- `sp_get()` (R110). -/
def execSpGet (s : State) : Result := complete s.sp s

/-- `sp_set(v)` (R111). -/
def execSpSet (v : Word16) (s : State) : Result := complete 0 { s with sp := v }

/-- `mem_get(a)` (R112). -/
def execMemGet (a : Word16) (s : State) : Result :=
  attempt (s.readMem a) s fun v => complete (v.setWidth 16) s

/-- `mem_set(a, v)` (R113). -/
def execMemSet (a : Word16) (v : Byte) (s : State) : Result :=
  attempt (s.writeMem a v) s fun s' => complete 0 s'

end Sys2Proof.Machine
end

