-- ==== Sys2Proof/Machine/OperandDecode.lean ====
section
/-! DEFINITION. The operation that exposes the r8 table (42_operand_decode.md R86). -/

namespace Sys2Proof.Machine

/-- `operand_register(code)` (R86). -/
def execOperandRegister (code : Byte) (s : State) : Result :=
  attempt (operandName code) s fun v => complete v s

end Sys2Proof.Machine
end

