-- ==== Sys2Proof/Machine/RegisterFile.lean ====
section
/-! DEFINITION. The register-file operations (40_register_file.md R67 to R70). -/

namespace Sys2Proof.Machine

/-- `get(n)` (R67). -/
def execGet (n : NameIx) (s : State) : Result :=
  attempt (regNamed n) s fun r => complete ((s.readReg r).setWidth 16) s

/-- `set(n, v)` (R68). -/
def execSet (n : NameIx) (v : Byte) (s : State) : Result :=
  attempt (regNamed n) s fun r => complete 0 (s.writeReg r v)

/-- `get_pair(hi, lo)` (R69). -/
def execGetPair (hi lo : NameIx) (s : State) : Result :=
  attempt (regsNamed hi lo) s fun r => complete (pair (s.readReg r.1) (s.readReg r.2)) s

/-- `set_pair(hi, lo, v)` (R70): the high byte first, then the low byte, which stays if both names are one register. -/
def execSetPair (hi lo : NameIx) (v : Word16) (s : State) : Result :=
  attempt (regsNamed hi lo) s fun r => complete 0 ((s.writeReg r.1 (highByte v)).writeReg r.2 (lowByte v))

end Sys2Proof.Machine
end

