-- ==== Sys2Proof/Machine/Dispatch.lean ====
section
/-! DEFINITION. One arm per command of 30_encoding.md R47. -/

namespace Sys2Proof.Machine

def exec (i : Instr) (s : State) : Host.Outcome State Fault Refusal :=
  match i with
  | .get n => Sys2Proof.Machine.execGet n s
  | .set n v => Sys2Proof.Machine.execSet n v s
  | .getPair hi lo => Sys2Proof.Machine.execGetPair hi lo s
  | .setPair hi lo v => Sys2Proof.Machine.execSetPair hi lo v s
  | .flagShift f => Sys2Proof.Machine.execFlagShift f s
  | .getFlags => Sys2Proof.Machine.execGetFlags s
  | .getFlag f => Sys2Proof.Machine.execGetFlag f s
  | .setFlag f b => Sys2Proof.Machine.execSetFlag f b s
  | .operandRegister code => Sys2Proof.Machine.execOperandRegister code s
  | .add code => Sys2Proof.Machine.execAdd code s
  | .addc code => Sys2Proof.Machine.execAddc code s
  | .addcHl => Sys2Proof.Machine.execAddcHl s
  | .addN8 v => Sys2Proof.Machine.execAddN8 v s
  | .addHlR16 v => Sys2Proof.Machine.execAddHlR16 v s
  | .addHlSp => Sys2Proof.Machine.execAddHlSp s
  | .addSpE8 e => Sys2Proof.Machine.execAddSpE8 e s
  | .spGet => Sys2Proof.Machine.execSpGet s
  | .spSet v => Sys2Proof.Machine.execSpSet v s
  | .memGet a => Sys2Proof.Machine.execMemGet a s
  | .memSet a v => Sys2Proof.Machine.execMemSet a v s

end Sys2Proof.Machine
end

