-- ==== Sys2Proof/Machine/Step.lean ====
section
/-! DEFINITION. One step of the CORE: `step : State x Command -> State x Response` (00_scope.md R5), with the command taken
from the port and the response given to it (30_encoding.md R58). -/

namespace Sys2Proof.Machine

/-- Take the oldest event: a reset puts the state to its reset values, a command word is decoded and executed (R57), a
reserved one is rejected; with no event the block waits. -/
def step (s : State) : Host.Outcome State Fault Refusal :=
  match fetch s with
  | .idle => waitForEvent s
  | .reset s' => takeReset s'
  | .command w s' =>
    match decode w with
    | some i => exec i s'
    | none => rejectWord w s'

/-- `s` with the row's word presented on the command port as the next event (log entry 14). -/
def State.withFetchWord (s : State) (nbits w : Nat) : State := s.present (commandOfBits nbits w)

end Sys2Proof.Machine
end

