-- ==== Sys2Proof/Safety.lean ====
section
/-! DEFINITION. What counts as a good state and as a good run. -/

namespace Sys2Proof.Machine

/-- The invariant of the machine: the memory block is in its canonical form, so every listed address names a cell
(20_memory.md R30) and equal memories are equal data. -/
def State.Inv (s : State) : Prop := s.mem.wf = true

/-- Some response so far carried a non-zero fault code: "a run in which any response carried a non-zero fault code should
be recorded as a faulted run" (60_exceptions.md R129). -/
def State.faulted (s : State) : Bool := s.respOut.any fun r => r.fault.isSome

/-- A run of `k` steps from `s` that ends in `t` and counts: by R129 a faulted run satisfies no postcondition. -/
def SafeRun (k : Nat) (s t : State) : Prop := Sys2Proof.core.run k s = .next t ∧ t.faulted = false

end Sys2Proof.Machine
end

