-- ==== Sys2Proof/Certificates/Slice0/Obligations.lean ====
section
/-! DEFINITION. The statements for the provers, from the numbered rules of the spec. -/

namespace Sys2Proof.Statements

open Sys2Proof Sys2Proof.Machine

/-! ### The vocabulary of the statements -/

/-- Every word whose `op` is this one decodes to this command. -/
def DecodesAs (op : Byte) (f : CmdWord → Instr) : Prop :=
  ∀ w : CmdWord, w.extractLsb' 24 8 = op → decode w = some (f w)

/-- The command completes in `t` with response value `v` (fault code 0); the pending events stay. -/
def CompletesWith (i : Instr) (s t : State) (v : Word16) : Prop :=
  exec i s = .next t ∧ t.respOut = s.respOut ++ [⟨none, v⟩] ∧ t.cmdIn = s.cmdIn

/-- The command completes with value `v` and changes nothing else: no register, flag, SP or memory cell. -/
def OnlyAnswers (i : Instr) (s : State) (v : Word16) : Prop :=
  exec i s = .next { s with respOut := s.respOut ++ [⟨none, v⟩] }

/-- The command raises this fault with this value and changes nothing else (60_exceptions.md R126). -/
def FaultsWith (i : Instr) (s : State) (k : CoreFault) (v : Word16) : Prop :=
  exec i s = .next { s with respOut := s.respOut ++ [⟨some k, v⟩] }

/-- Every named register but these reads as before. -/
def RegsSameBut (rs : List Reg) (s t : State) : Prop := ∀ r, r ∉ rs → t.readReg r = s.readReg r

/-- What a register holds of a byte written to it: F drops the low nibble (R13). -/
def kept (r : Reg) (v : Byte) : Byte := if r = .F then v &&& 0xF0 else v

/-- Bit positions of the flags (R14). -/
def position : Flag → Nat
  | .Z => 7
  | .S => 6
  | .HC => 5
  | .C => 4

/-- `FLAGENC(res == 0, false, hc, cy)` of a sum (R91). -/
def sumFlags {w : Nat} (o : Sum w) : Byte := flagEnc (o.res == 0) false o.hc o.cy

/-- The command completes an addition into A: result, flags, and nothing else. -/
def AddsToA (i : Instr) (s : State) (o : Sum 8) : Prop :=
  ∃ t, CompletesWith i s t 0 ∧ t.a = o.res ∧ t.flagByte = sumFlags o ∧ RegsSameBut [.A, .F] s t ∧
    t.sp = s.sp ∧ t.mem = s.mem

/-- The command completes an addition into HL: high byte to H, low byte to L, flags, and nothing else. -/
def AddsToHl (i : Instr) (s : State) (o : Sum 16) : Prop :=
  ∃ t, CompletesWith i s t 0 ∧ t.h = highByte o.res ∧ t.l = lowByte o.res ∧ t.flagByte = sumFlags o ∧
    RegsSameBut [.H, .L, .F] s t ∧ t.sp = s.sp ∧ t.mem = s.mem

/-- The command completes an addition into SP: result, flags, and nothing else. -/
def AddsToSp (i : Instr) (s : State) (o : Sum 16) : Prop :=
  ∃ t, CompletesWith i s t 0 ∧ t.sp = o.res ∧ t.flagByte = sumFlags o ∧ RegsSameBut [.F] s t ∧ t.mem = s.mem

/-- The carry flag as a byte, 0 or 1. -/
def carryIn (s : State) : Byte := if s.flagByte.getLsbD 4 then 1 else 0

/-- The sum of `addc` as R93 writes it: result and carry from `a + t` with `t = b + ci` in 8 bits, half-carry from `a`
and `b` only. -/
def addcRule (a b ci : Byte) : Sum 8 :=
  { res := (add8 a (b + ci)).res, hc := (add8 a b).hc, cy := (add8 a (b + ci)).cy }

/-! ### The access table (10_state.md R22) -/

/-- The registers an operand code reads. -/
def codeNames (code : Byte) (r : Reg) : Bool := r8dec code = .register r

/-- The "w" marks of the first two columns. -/
def writesReg : Instr → Reg → Bool
  | .set n _, r => n = regIndex r
  | .setPair hi lo _, r => hi = regIndex r || lo = regIndex r
  | .setFlag _ _, r => r = .F
  | .add _, r => r = .A || r = .F
  | .addc _, r => r = .A || r = .F
  | .addcHl, r => r = .A || r = .F
  | .addN8 _, r => r = .A || r = .F
  | .addHlR16 _, r => r = .H || r = .L || r = .F
  | .addHlSp, r => r = .H || r = .L || r = .F
  | .addSpE8 _, r => r = .F
  | .get _, _ => false
  | .getPair _ _, _ => false
  | .flagShift _, _ => false
  | .getFlags, _ => false
  | .getFlag _, _ => false
  | .operandRegister _, _ => false
  | .spGet, _ => false
  | .spSet _, _ => false
  | .memGet _, _ => false
  | .memSet _ _, _ => false

/-- The "w" marks of the SP column. -/
def writesSp (i : Instr) : Prop := (∃ e, i = .addSpE8 e) ∨ ∃ v, i = .spSet v

/-- The "w" marks of the memory column: the one cell written. -/
def writesMem (i : Instr) (a : Word16) : Prop := ∃ v, i = .memSet a v

/-- The "r" marks of the first two columns, but for the carry of `addc` and `addc_hl`. -/
def readsReg : Instr → Reg → Bool
  | .get n, r => n = regIndex r
  | .getPair hi lo, r => hi = regIndex r || lo = regIndex r
  | .getFlags, r => r = .F
  | .getFlag _, r => r = .F
  | .setFlag _ _, r => r = .F
  | .add code, r => r = .A || codeNames code r
  | .addc code, r => r = .A || codeNames code r
  | .addcHl, r => r = .A || r = .H || r = .L
  | .addN8 _, r => r = .A
  | .addHlR16 _, r => r = .H || r = .L
  | .addHlSp, r => r = .H || r = .L
  | .set _ _, _ => false
  | .setPair _ _ _, _ => false
  | .flagShift _, _ => false
  | .operandRegister _, _ => false
  | .addSpE8 _, _ => false
  | .spGet, _ => false
  | .spSet _, _ => false
  | .memGet _, _ => false
  | .memSet _ _, _ => false

/-- "r C": the operations that read the carry flag. -/
def readsCarry (i : Instr) : Prop := (∃ code, i = .addc code) ∨ i = .addcHl

/-- The "r" marks of the SP column. -/
def readsSp (i : Instr) : Prop := i = .addHlSp ∨ (∃ e, i = .addSpE8 e) ∨ i = .spGet

/-- The "r" marks of the memory column: the one cell read. -/
def readsMem (i : Instr) (s : State) (a : Word16) : Prop := (i = .addcHl ∧ a = pair s.h s.l) ∨ i = .memGet a

/-! ### The fault table (60_exceptions.md R120) -/

/-- The fault and value a command raises, if any, by the table of R120: a name index 8 to 15, of a pair the first
offending one. -/
def badName (n : NameIx) : Option (CoreFault × Word16) :=
  if 8 ≤ n.toNat then some (.unknownRegister, n.setWidth 16) else none

/-- A flag index 4 to 15. -/
def badFlag (f : FlagIx) : Option (CoreFault × Word16) :=
  if 4 ≤ f.toNat then some (.unknownFlag, f.setWidth 16) else none

/-- An operand code 8 to 255, or 6 where a plain register is required. -/
def badCode (plain : Bool) (code : Byte) : Option (CoreFault × Word16) :=
  if 8 ≤ code.toNat ∨ plain = true ∧ code = 6 then some (.invalidOperandCode, code.setWidth 16) else none

/-- An address at or above MEM_CELLS: 0xFFFF. -/
def badAddress (a : Word16) : Option (CoreFault × Word16) :=
  if a = 0xFFFF then some (.memoryBounds, a) else none

/-- The table of R120. -/
def faultOf (s : State) : Instr → Option (CoreFault × Word16)
  | .get n => badName n
  | .set n _ => badName n
  | .getPair hi lo => (badName hi).or (badName lo)
  | .setPair hi lo _ => (badName hi).or (badName lo)
  | .flagShift f => badFlag f
  | .getFlag f => badFlag f
  | .setFlag f _ => badFlag f
  | .operandRegister code => badCode false code
  | .add code => badCode true code
  | .addc code => badCode true code
  | .addcHl => badAddress (pair s.h s.l)
  | .memGet a => badAddress a
  | .memSet a _ => badAddress a
  | .getFlags => none
  | .addN8 _ => none
  | .addHlR16 _ => none
  | .addHlSp => none
  | .addSpE8 _ => none
  | .spGet => none
  | .spSet _ => none

/-! ### Families -/

/-- The seven ADD-family operations (R91), with the value of their destination. -/
def destination (t : State) : Instr → Option Nat
  | .add _ => some t.a.toNat
  | .addc _ => some t.a.toNat
  | .addcHl => some t.a.toNat
  | .addN8 _ => some t.a.toNat
  | .addHlR16 _ => some (pair t.h t.l).toNat
  | .addHlSp => some (pair t.h t.l).toNat
  | .addSpE8 _ => some t.sp.toNat
  | .get _ => none
  | .set _ _ => none
  | .getPair _ _ => none
  | .setPair _ _ _ => none
  | .flagShift _ => none
  | .getFlags => none
  | .getFlag _ => none
  | .setFlag _ _ => none
  | .operandRegister _ => none
  | .spGet => none
  | .spSet _ => none
  | .memGet _ => none
  | .memSet _ _ => none

/-- What `set_pair` then `get_pair` of the same names returns (R71 law 2). -/
def pairReadBack (hi lo : Reg) (v : Word16) : Word16 :=
  if hi = lo then
    if hi = .F then pair (lowByte v &&& 0xF0) (lowByte v &&& 0xF0) else pair (lowByte v) (lowByte v)
  else if lo = .F then v &&& 0xFFF0
  else if hi = .F then v &&& 0xF0FF
  else v

/-- The event is a command word. -/
def isCommand : PortEvent → Bool
  | .cmd _ => true
  | .reset => false

/-- The event can change memory: a reset, or a word that decodes to `mem_set`. -/
def mayChangeMemory : PortEvent → Bool
  | .reset => true
  | .cmd w => w.extractLsb' 24 8 = 0x13#8

end Sys2Proof.Statements

open Sys2Proof Sys2Proof.Machine Sys2Proof.Statements

/-! ### Encoding -/

/-- R57, R46, R52: decoding the encoding of a command gives it back, whatever its operands. -/
def Obligations.DecodeOfEncodeIsIdentity : Prop := ∀ i : Instr, decode (encode i) = some i

/-- What the decoder accepts re-encodes to the same word with the bits its format (R52) does not list cleared. That
those bits come out zero is the model's choice (log entry 11): the spec only says that an issuer should write them so.
-/
def Obligations.EncodeOfDecodeClearsUnusedBits : Prop :=
  ∀ (w : CmdWord) (i : Instr), decode w = some i → encode i = w &&& usedBits (w.extractLsb' 24 8)

/-- R53: the bits of a word its format does not list "do not change what the operation does or returns": the step on the
word is the step on the word with them cleared. -/
def Obligations.UnusedBitsDoNotMatter : Prop :=
  ∀ (w : CmdWord) (rest : List PortEvent) (s : State),
    step { s with cmdIn := .cmd w :: rest } =
      step { s with cmdIn := .cmd (w &&& usedBits (w.extractLsb' 24 8)) :: rest }

/-- Words written out from 30_encoding.md (its R46 and R60 examples and those of files 40 to 45). -/
def Obligations.ExampleWordsDecode : Prop :=
  decode 0x0100003C = some (.set 0 0x3C) ∧ decode 0x02670000 = some (.getPair 6 7) ∧
  decode 0x03678FFF = some (.setPair 6 7 0x8FFF) ∧ decode 0x04200000 = some (.flagShift 2) ∧
  decode 0x07300001 = some (.setFlag 3 true) ∧ decode 0x08000006 = some (.operandRegister 6) ∧
  decode 0x0A000000 = some (.addc 0) ∧ decode 0x0C0000C6 = some (.addN8 0xC6) ∧
  decode 0x0F0000E9 = some (.addSpE8 0xE9) ∧ decode 0x130F1234 = some (.memSet 0x1234 0x0F) ∧
  decode 0x14000000 = none

/-- R125, R54, R57: exactly the words with `op` 0x14 to 0xFF decode to nothing, and a step on one answers
InvalidOperation with the `op` byte and changes nothing else. -/
def Obligations.ReservedOpRaisesInvalidOperation : Prop :=
  (∀ w : CmdWord, decode w = none ↔ 0x14 ≤ (w.extractLsb' 24 8).toNat) ∧
  ∀ (w : CmdWord) (rest : List PortEvent) (s : State), s.cmdIn = .cmd w :: rest → 0x14 ≤ (w.extractLsb' 24 8).toNat →
    step s = .next { s with
      cmdIn := rest, respOut := s.respOut ++ [⟨some .invalidOperation, (w.extractLsb' 24 8).setWidth 16⟩] }

/-- R48: the name indices, the indices that name no register, and that an index is never the operand code of its
register. -/
def Obligations.NameIndexTable : Prop :=
  regIndex .A = 0 ∧ regIndex .B = 1 ∧ regIndex .C = 2 ∧ regIndex .D = 3 ∧ regIndex .E = 4 ∧ regIndex .F = 5 ∧
  regIndex .H = 6 ∧ regIndex .L = 7 ∧ (∀ r, regNamed (regIndex r) = .ok r) ∧
  (∀ n : NameIx, 8 ≤ n.toNat → regNamed n = .error ⟨.unknownRegister, n.setWidth 16⟩) ∧
  ∀ (code : Byte) (r : Reg), r8dec code = .register r → code.toNat ≠ (regIndex r).toNat

/-- R49: the flag indices, their bits of F, and the indices that name no flag. -/
def Obligations.FlagIndexTable : Prop :=
  flagIndex .Z = 0 ∧ flagIndex .S = 1 ∧ flagIndex .HC = 2 ∧ flagIndex .C = 3 ∧ flagBit .Z = 7 ∧ flagBit .S = 6 ∧
  flagBit .HC = 5 ∧ flagBit .C = 4 ∧ (∀ g, flagNamed (flagIndex g) = .ok g) ∧
  ∀ f : FlagIx, 4 ≤ f.toNat → flagNamed f = .error ⟨.unknownFlag, f.setWidth 16⟩

/-! ### Combinational primitives -/

/-- R65, R66: the pair synthesizer is wiring; and PAIR and SPLIT are inverse, which R66 marks as the spec's own
inference ("derived: from the two formulas"). -/
def Obligations.PairAndSplitAreInverse : Prop :=
  (∀ hi lo : Byte, (pair hi lo).toNat = hi.toNat * 256 + lo.toNat) ∧
  (∀ v : Word16, (highByte v).toNat = v.toNat / 256 ∧ (lowByte v).toNat = v.toNat % 256) ∧
  (∀ v : Word16, pair (highByte v) (lowByte v) = v) ∧
  ∀ hi lo : Byte, highByte (pair hi lo) = hi ∧ lowByte (pair hi lo) = lo

/-- R75: FLAGENC puts Z, S, HC, C in bits 7 to 4 over a zero low nibble. -/
def Obligations.FlagEncoderPlacesFourBits : Prop :=
  ∀ z s hc c : Bool,
    (flagEnc z s hc c).toNat = 128 * z.toNat + 64 * s.toNat + 32 * hc.toNat + 16 * c.toNat

/-- R76: FLAGUPD sets one bit to `b`, keeps the other seven, and so keeps a zero low nibble. -/
def Obligations.FlagUpdaterChangesOneBit : Prop :=
  ∀ (old : Byte) (sh : Nat) (b : Bool), 4 ≤ sh → sh ≤ 7 →
    (∀ i, i < 8 → (flagUpd old sh b).getLsbD i = if i = sh then b else old.getLsbD i) ∧
    (old &&& 0x0F = 0 → flagUpd old sh b &&& 0x0F = 0)

/-- R85, R87: the decode table, and RESOLVE8 over it: a plain register's value, or InvalidOperandCode for code 6 and
codes 8 to 255. -/
def Obligations.OperandCodeTableAndResolve : Prop :=
  r8dec 0 = .register .B ∧ r8dec 1 = .register .C ∧ r8dec 2 = .register .D ∧ r8dec 3 = .register .E ∧
  r8dec 4 = .register .H ∧ r8dec 5 = .register .L ∧ r8dec 6 = .memoryIndirectHl ∧ r8dec 7 = .register .A ∧
  (∀ code : Byte, 8 ≤ code.toNat → r8dec code = .invalid) ∧ (∀ code, r8dec code ≠ .register .F) ∧
  (∀ (code : Byte) (r : Reg) (s : State), r8dec code = .register r → resolve8 code s = .ok (s.readReg r)) ∧
  ∀ (code : Byte) (s : State), code = 6 ∨ 8 ≤ code.toNat →
    resolve8 code s = .error ⟨.invalidOperandCode, code.setWidth 16⟩

/-- R90: ADD8 is the sum modulo 256 with the carries out of bits 3 and 7. -/
def Obligations.EightBitAdder : Prop :=
  ∀ a b : Byte, (add8 a b).res.toNat = (a.toNat + b.toNat) % 256 ∧
    (add8 a b).hc = decide (15 < a.toNat % 16 + b.toNat % 16) ∧ (add8 a b).cy = decide (255 < a.toNat + b.toNat)

/-- R100: ADD16 is the sum modulo 65536 with the carries out of bits 11 and 15. -/
def Obligations.SixteenBitAdder : Prop :=
  ∀ a b : Word16, (add16 a b).res.toNat = (a.toNat + b.toNat) % 65536 ∧
    (add16 a b).hc = decide (4095 < a.toNat % 4096 + b.toNat % 4096) ∧
    (add16 a b).cy = decide (65535 < a.toNat + b.toNat)

/-- R104: the non-negative branch, half-carry out of bit 3 and carry out of bit 15. -/
def Obligations.NonNegativeStackPointerAdder : Prop :=
  ∀ (sp : Word16) (e : Byte), e.getLsbD 7 = false →
    (spAddNonneg sp e).res.toNat = (sp.toNat + e.toNat) % 65536 ∧
    (spAddNonneg sp e).hc = decide (15 < sp.toNat % 16 + e.toNat % 16) ∧
    (spAddNonneg sp e).cy = decide (65535 < sp.toNat + e.toNat)

/-- R105: the negative branch, the two "less than or equal" tests, and what they come to by the spec's own inference
(R105, consequences 1 and 2, marked derived): the carry is the carry out of bit 7 of the low bytes, the half-carry the
carry out of bit 3 or an immediate whose low nibble is zero. -/
def Obligations.NegativeStackPointerAdder : Prop :=
  ∀ (sp : Word16) (e : Byte), e.getLsbD 7 = true →
    (spAddNeg sp e).res.toNat = (sp.toNat + (0xFF00 + e.toNat)) % 65536 ∧
    (spAddNeg sp e).hc = decide ((spAddNeg sp e).res.toNat % 16 ≤ sp.toNat % 16) ∧
    (spAddNeg sp e).cy = decide ((spAddNeg sp e).res.toNat % 256 ≤ sp.toNat % 256) ∧
    (spAddNeg sp e).cy = decide (255 < sp.toNat % 256 + e.toNat) ∧
    (spAddNeg sp e).hc = decide (15 < sp.toNat % 16 + e.toNat % 16 ∨ e.toNat % 16 = 0)

/-- The two settings of ADC_WRAP (log entry 6) differ in the carry alone, and only for an operand 0xFF with carry-in 1,
where wrapping loses the carry. That the result is the same there is the spec's own inference (marked derived in
43_add8.md section 3), and the `false` setting is the spec's own variant (92_eei_decisions.md D7), which no source
specifies. -/
def Obligations.AdcWrapMattersOnlyForCarryOfFF : Prop :=
  ∀ (a b : Byte) (ci : Bool),
    (addcSum true a b ci).res = (addcSum false a b ci).res ∧ (addcSum true a b ci).hc = (addcSum false a b ci).hc ∧
    (¬(b = 0xFF ∧ ci = true) → (addcSum true a b ci).cy = (addcSum false a b ci).cy) ∧
    (b = 0xFF → ci = true → (addcSum true a b ci).cy = false ∧ (addcSum false a b ci).cy = true)

/-- R33: MemRead raises MemoryBounds at and above MEM_CELLS = 65535, that is at 0xFFFF, and reads the cell below. -/
def Obligations.MemoryReadIsBounded : Prop :=
  (∀ (a : Word16) (s : State), a.toNat < 65535 → s.readMem a = .ok (s.mem.lookup a.toNat)) ∧
  ∀ s : State, s.readMem 0xFFFF = .error ⟨.memoryBounds, 0xFFFF⟩

/-- R44 (the spec's own inference, marked derived): whether there is a cell at 0xFFFF changes only accesses to 0xFFFF.
-/
def Obligations.MissingCellOnlyAffectsItsAddress : Prop :=
  (∀ (m : Memory) (a : Word16), a ≠ 0xFFFF → Memory.read 65535 m a = Memory.read 65536 m a) ∧
  (∀ (m : Memory) (a : Word16) (v : Byte), a ≠ 0xFFFF → Memory.write 65535 m a v = Memory.write 65536 m a v) ∧
  ∀ (m : Memory) (v : Byte), Memory.read 65535 m 0xFFFF = .error ⟨.memoryBounds, 0xFFFF⟩ ∧
    Memory.write 65535 m 0xFFFF v = .error ⟨.memoryBounds, 0xFFFF⟩ ∧
    (∃ b, Memory.read 65536 m 0xFFFF = .ok b) ∧ ∃ m', Memory.write 65536 m 0xFFFF v = .ok m'

/-! ### The register file -/

/-- R67. -/
def Obligations.GetReturnsTheRegister : Prop :=
  DecodesAs 0x00 (fun w => .get (w.extractLsb' 20 4)) ∧
  (∀ (r : Reg) (s : State), OnlyAnswers (.get (regIndex r)) s ((s.readReg r).setWidth 16)) ∧
  ∀ (n : NameIx) (s : State), 8 ≤ n.toNat → FaultsWith (.get n) s .unknownRegister (n.setWidth 16)

/-- R68. -/
def Obligations.SetWritesTheRegister : Prop :=
  DecodesAs 0x01 (fun w => .set (w.extractLsb' 20 4) (w.extractLsb' 0 8)) ∧
  (∀ (r : Reg) (v : Byte) (s : State), ∃ t, CompletesWith (.set (regIndex r) v) s t 0 ∧ t.readReg r = kept r v ∧
    RegsSameBut [r] s t ∧ t.sp = s.sp ∧ t.mem = s.mem) ∧
  ∀ (n : NameIx) (v : Byte) (s : State), 8 ≤ n.toNat → FaultsWith (.set n v) s .unknownRegister (n.setWidth 16)

/-- R69. -/
def Obligations.GetPairReturnsBothRegisters : Prop :=
  DecodesAs 0x02 (fun w => .getPair (w.extractLsb' 20 4) (w.extractLsb' 16 4)) ∧
  (∀ (hi lo : Reg) (s : State),
    OnlyAnswers (.getPair (regIndex hi) (regIndex lo)) s (pair (s.readReg hi) (s.readReg lo))) ∧
  (∀ (n m : NameIx) (s : State), 8 ≤ n.toNat → FaultsWith (.getPair n m) s .unknownRegister (n.setWidth 16)) ∧
  ∀ (r : Reg) (n : NameIx) (s : State), 8 ≤ n.toNat →
    FaultsWith (.getPair (regIndex r) n) s .unknownRegister (n.setWidth 16)

/-- R70: the low byte is written last, so it stays when both names are one register. -/
def Obligations.SetPairWritesBothRegisters : Prop :=
  DecodesAs 0x03 (fun w => .setPair (w.extractLsb' 20 4) (w.extractLsb' 16 4) (w.extractLsb' 0 16)) ∧
  (∀ (hi lo : Reg) (v : Word16) (s : State), ∃ t, CompletesWith (.setPair (regIndex hi) (regIndex lo) v) s t 0 ∧
    (hi ≠ lo → t.readReg hi = kept hi (highByte v)) ∧ t.readReg lo = kept lo (lowByte v) ∧
    RegsSameBut [hi, lo] s t ∧ t.sp = s.sp ∧ t.mem = s.mem) ∧
  (∀ (n m : NameIx) (v : Word16) (s : State), 8 ≤ n.toNat →
    FaultsWith (.setPair n m v) s .unknownRegister (n.setWidth 16)) ∧
  ∀ (r : Reg) (n : NameIx) (v : Word16) (s : State), 8 ≤ n.toNat →
    FaultsWith (.setPair (regIndex r) n v) s .unknownRegister (n.setWidth 16)

/-- R71: the round-trip laws, on every register and pair; its laws 3 and 4 are marked as the spec's own inference. -/
def Obligations.RegisterRoundTrips : Prop :=
  (∀ (r : Reg) (v : Byte) (s t : State), exec (.set (regIndex r) v) s = .next t →
    OnlyAnswers (.get (regIndex r)) t ((kept r v).setWidth 16)) ∧
  (∀ (hi lo : Reg) (v : Word16) (s t : State), exec (.setPair (regIndex hi) (regIndex lo) v) s = .next t →
    OnlyAnswers (.getPair (regIndex hi) (regIndex lo)) t (pairReadBack hi lo v)) ∧
  (∀ (r : Reg) (v : Byte) (s t : State), exec (.set (regIndex r) v) s = .next t →
    RegsSameBut [r] s t ∧ t.sp = s.sp ∧ t.mem = s.mem) ∧
  (∀ (hi lo : Reg) (v : Word16) (s t : State), exec (.setPair (regIndex hi) (regIndex lo) v) s = .next t →
    RegsSameBut [hi, lo] s t ∧ t.sp = s.sp ∧ t.mem = s.mem) ∧
  ∀ (i : Instr) (s t : State), ((∃ n, i = .get n) ∨ ∃ n m, i = .getPair n m) → exec i s = .next t →
    t = { s with respOut := t.respOut }

/-! ### The flags -/

/-- R13: the low nibble of F reads as zero always and a write to it is dropped. -/
def Obligations.FlagRegisterLowNibbleIsZero : Prop :=
  (∀ s : State, s.readReg .F &&& 0x0F = 0) ∧
  ∀ (v : Byte) (s t : State), exec (.set (regIndex .F) v) s = .next t → t.readReg .F = v &&& 0xF0

/-- R77. -/
def Obligations.FlagShiftReturnsThePosition : Prop :=
  DecodesAs 0x04 (fun w => .flagShift (w.extractLsb' 20 4)) ∧
  (∀ (g : Flag) (s : State), OnlyAnswers (.flagShift (flagIndex g)) s (BitVec.ofNat 16 (position g))) ∧
  ∀ (f : FlagIx) (s : State), 4 ≤ f.toNat → FaultsWith (.flagShift f) s .unknownFlag (f.setWidth 16)

/-- R78: and the value is that of `get(F)`. -/
def Obligations.GetFlagsReturnsF : Prop :=
  DecodesAs 0x05 (fun _ => .getFlags) ∧
  ∀ s : State, OnlyAnswers .getFlags s ((s.readReg .F).setWidth 16) ∧
    exec .getFlags s = exec (.get (regIndex .F)) s ∧ ((s.readReg .F).setWidth 16 : Word16) &&& 0xFF0F = 0

/-- R79. -/
def Obligations.GetFlagReturnsOneBit : Prop :=
  DecodesAs 0x06 (fun w => .getFlag (w.extractLsb' 20 4)) ∧
  (∀ (g : Flag) (s : State),
    OnlyAnswers (.getFlag (flagIndex g)) s (if (s.readReg .F).getLsbD (position g) then 1 else 0)) ∧
  ∀ (f : FlagIx) (s : State), 4 ≤ f.toNat → FaultsWith (.getFlag f) s .unknownFlag (f.setWidth 16)

/-- R80. -/
def Obligations.SetFlagChangesOneFlag : Prop :=
  DecodesAs 0x07 (fun w => .setFlag (w.extractLsb' 20 4) (w.getLsbD 0)) ∧
  (∀ (g : Flag) (b : Bool) (s : State), ∃ t, CompletesWith (.setFlag (flagIndex g) b) s t 0 ∧
    t.readReg .F = flagUpd (s.readReg .F) (position g) b ∧ (t.readReg .F).getLsbD (position g) = b ∧
    (∀ g', g' ≠ g → (t.readReg .F).getLsbD (position g') = (s.readReg .F).getLsbD (position g')) ∧
    t.readReg .F &&& 0x0F = 0 ∧ RegsSameBut [.F] s t ∧ t.sp = s.sp ∧ t.mem = s.mem) ∧
  ∀ (f : FlagIx) (b : Bool) (s : State), 4 ≤ f.toNat → FaultsWith (.setFlag f b) s .unknownFlag (f.setWidth 16)

/-- R81: the flag laws, law 3 being that there is one register (R12); its laws 4 and 5 are marked as the spec's own
inference. -/
def Obligations.FlagLaws : Prop :=
  (∀ (g : Flag) (b : Bool) (s t : State), exec (.setFlag (flagIndex g) b) s = .next t →
    OnlyAnswers (.getFlag (flagIndex g)) t (if b then 1 else 0) ∧
    ∀ g', g' ≠ g → (t.readReg .F).getLsbD (position g') = (s.readReg .F).getLsbD (position g')) ∧
  (∀ s : State, s.readReg .F &&& 0x0F = 0) ∧
  (∀ s : State, exec .getFlags s = exec (.get (regIndex .F)) s) ∧
  (∀ (g : Flag) (s : State), ∃ sh fl v : Word16, OnlyAnswers (.flagShift (flagIndex g)) s sh ∧
    OnlyAnswers .getFlags s fl ∧ OnlyAnswers (.getFlag (flagIndex g)) s v ∧
    v = if fl.getLsbD sh.toNat then 1 else 0) ∧
  ∀ s : State, s.readReg .F =
    flagEnc ((s.readReg .F).getLsbD 7) ((s.readReg .F).getLsbD 6) ((s.readReg .F).getLsbD 5) ((s.readReg .F).getLsbD 4)

/-- R14: "No ADD-family operation sets it": S becomes 1 only by `set_flag(S, true)` or a direct write of F. -/
def Obligations.SubtractFlagIsSetOnlyDirectly : Prop :=
  ∀ (i : Instr) (s t : State), exec i s = .next t → (s.readReg .F).getLsbD 6 = false → (t.readReg .F).getLsbD 6 = true →
    i = .setFlag (flagIndex .S) true ∨ (∃ v, i = .set (regIndex .F) v) ∨
    ∃ hi lo v, i = .setPair hi lo v ∧ (hi = regIndex .F ∨ lo = regIndex .F)

/-! ### The operand decoder -/

/-- R86. -/
def Obligations.OperandRegisterReturnsTheTableEntry : Prop :=
  DecodesAs 0x08 (fun w => .operandRegister (w.extractLsb' 0 8)) ∧
  (∀ s : State, OnlyAnswers (.operandRegister 0) s 1 ∧ OnlyAnswers (.operandRegister 1) s 2 ∧
    OnlyAnswers (.operandRegister 2) s 3 ∧ OnlyAnswers (.operandRegister 3) s 4 ∧
    OnlyAnswers (.operandRegister 4) s 6 ∧ OnlyAnswers (.operandRegister 5) s 7 ∧
    OnlyAnswers (.operandRegister 6) s 0x0010 ∧ OnlyAnswers (.operandRegister 7) s 0) ∧
  ∀ (code : Byte) (s : State), 8 ≤ code.toNat →
    FaultsWith (.operandRegister code) s .invalidOperandCode (code.setWidth 16)

/-! ### Additions into A -/

/-- R92. -/
def Obligations.AddAddsTheRegister : Prop :=
  DecodesAs 0x09 (fun w => .add (w.extractLsb' 0 8)) ∧
  (∀ (code : Byte) (r : Reg) (s : State), r8dec code = .register r →
    AddsToA (.add code) s (add8 s.a (s.readReg r))) ∧
  ∀ (code : Byte) (s : State), code = 6 ∨ 8 ≤ code.toNat →
    FaultsWith (.add code) s .invalidOperandCode (code.setWidth 16)

/-- R93, with both departures. -/
def Obligations.AddcAddsTheRegisterAndCarry : Prop :=
  DecodesAs 0x0A (fun w => .addc (w.extractLsb' 0 8)) ∧
  (∀ (code : Byte) (r : Reg) (s : State), r8dec code = .register r →
    AddsToA (.addc code) s (addcRule s.a (s.readReg r) (carryIn s))) ∧
  ∀ (code : Byte) (s : State), code = 6 ∨ 8 ≤ code.toNat →
    FaultsWith (.addc code) s .invalidOperandCode (code.setWidth 16)

/-- R94. -/
def Obligations.AddcHlAddsTheMemoryByteAndCarry : Prop :=
  DecodesAs 0x0B (fun _ => .addcHl) ∧
  (∀ s : State, pair s.h s.l ≠ 0xFFFF → ∃ b, s.readMem (pair s.h s.l) = .ok b ∧
    AddsToA .addcHl s (addcRule s.a b (carryIn s))) ∧
  ∀ s : State, pair s.h s.l = 0xFFFF → FaultsWith .addcHl s .memoryBounds 0xFFFF

/-- R95. -/
def Obligations.AddN8AddsTheImmediate : Prop :=
  DecodesAs 0x0C (fun w => .addN8 (w.extractLsb' 0 8)) ∧
  ∀ (v : Byte) (s : State), AddsToA (.addN8 v) s (add8 s.a v)

/-- R88 (the spec's own inference, marked derived): code 7 adds A to itself; the half-carry uses the old A on both
sides. -/
def Obligations.AccumulatorAsItsOwnOperand : Prop :=
  ∀ s : State,
    (∃ t, CompletesWith (.add 7) s t 0 ∧ t.a.toNat = 2 * s.a.toNat % 256 ∧
      (t.readReg .F).getLsbD 5 = decide (7 < s.a.toNat % 16)) ∧
    ∃ t, CompletesWith (.addc 7) s t 0 ∧
      t.a.toNat = (s.a.toNat + (s.a.toNat + (carryIn s).toNat) % 256) % 256 ∧
      (t.readReg .F).getLsbD 5 = decide (7 < s.a.toNat % 16)

/-- R96 (the spec's own inference, marked derived): the arithmetic laws of the four operations, in integers; Z and C
together exactly when `a + b = 256`, Z without C exactly when `a = b = 0`. -/
def Obligations.EightBitArithmeticLaws : Prop :=
  (∀ (i : Instr) (b : Byte) (s : State), (∃ code, i = .add code ∧ resolve8 code s = .ok b) ∨ i = .addN8 b →
    ∃ t, CompletesWith i s t 0 ∧ t.a.toNat = (s.a.toNat + b.toNat) % 256 ∧
      t.readReg .F = flagEnc (decide (t.a.toNat = 0)) false (decide (16 ≤ s.a.toNat % 16 + b.toNat % 16))
        (decide (256 ≤ s.a.toNat + b.toNat)) ∧
      (((t.readReg .F).getLsbD 7 = true ∧ (t.readReg .F).getLsbD 4 = true) ↔ s.a.toNat + b.toNat = 256) ∧
      (((t.readReg .F).getLsbD 7 = true ∧ (t.readReg .F).getLsbD 4 = false) ↔ s.a = 0 ∧ b = 0)) ∧
  ∀ (i : Instr) (b : Byte) (s : State),
    (∃ code, i = .addc code ∧ resolve8 code s = .ok b) ∨ (i = .addcHl ∧ s.readMem (pair s.h s.l) = .ok b) →
    ∃ t, CompletesWith i s t 0 ∧ t.a.toNat = (s.a.toNat + (b.toNat + (carryIn s).toNat) % 256) % 256 ∧
      t.readReg .F = flagEnc (decide (t.a.toNat = 0)) false (decide (16 ≤ s.a.toNat % 16 + b.toNat % 16))
        (decide (256 ≤ s.a.toNat + (b.toNat + (carryIn s).toNat) % 256))

/-! ### 16-bit additions -/

/-- R101. -/
def Obligations.AddHlR16AddsTheValue : Prop :=
  DecodesAs 0x0D (fun w => .addHlR16 (w.extractLsb' 0 16)) ∧
  ∀ (v : Word16) (s : State), AddsToHl (.addHlR16 v) s (add16 (pair s.h s.l) v)

/-- R102: "`add_HL_SP()` has the same effect as `add_HL_r16(SP)`". -/
def Obligations.AddHlSpAddsTheStackPointer : Prop :=
  DecodesAs 0x0E (fun _ => .addHlSp) ∧
  ∀ s : State, AddsToHl .addHlSp s (add16 (pair s.h s.l) s.sp) ∧ exec .addHlSp s = exec (.addHlR16 s.sp) s

/-- R103: the branch is chosen by the sign bit of the immediate. -/
def Obligations.AddSpE8AddsTheSignedByte : Prop :=
  DecodesAs 0x0F (fun w => .addSpE8 (w.extractLsb' 0 8)) ∧
  (∀ (e : Byte) (s : State), e.getLsbD 7 = false → AddsToSp (.addSpE8 e) s (spAddNonneg s.sp e)) ∧
  ∀ (e : Byte) (s : State), e.getLsbD 7 = true → AddsToSp (.addSpE8 e) s (spAddNeg s.sp e)

/-- R106 (its signed-sum law is the spec's own inference, marked derived): the arithmetic laws of the three operations,
in integers; `add_SP_e8` is the signed sum modulo 65536 in both branches, A never changes, and Z and C together mean a
true sum of 65536 for the two HL operations. -/
def Obligations.SixteenBitArithmeticLaws : Prop :=
  (∀ (i : Instr) (v : Word16) (s : State), i = .addHlR16 v ∨ (i = .addHlSp ∧ v = s.sp) →
    ∃ t, CompletesWith i s t 0 ∧ (pair t.h t.l).toNat = ((pair s.h s.l).toNat + v.toNat) % 65536 ∧
      (t.readReg .F).getLsbD 4 = decide (65536 ≤ (pair s.h s.l).toNat + v.toNat) ∧
      (((t.readReg .F).getLsbD 7 = true ∧ (t.readReg .F).getLsbD 4 = true) ↔
        (pair s.h s.l).toNat + v.toNat = 65536) ∧ t.a = s.a) ∧
  ∀ (e : Byte) (s : State), ∃ t, CompletesWith (.addSpE8 e) s t 0 ∧
    (t.sp.toNat : Int) = ((s.sp.toNat : Int) + e.toInt) % 65536 ∧ t.a = s.a

/-- R91: every completed addition sets Z to "result is 0" and S to false, and its result and flags do not depend on the
flags before it, the carry-in of `addc` and `addc_hl` apart. -/
def Obligations.AdditionFlagContract : Prop :=
  (∀ (i : Instr) (s t : State) (v : Word16) (d : Nat), CompletesWith i s t v → destination t i = some d →
    v = 0 ∧ (t.readReg .F).getLsbD 7 = decide (d = 0) ∧ (t.readReg .F).getLsbD 6 = false) ∧
  ∀ (i : Instr) (s t : State) (f : Nibble) (d : Nat), CompletesWith i s t 0 → destination t i = some d →
    (readsCarry i → f.getLsbD 0 = s.fHigh.getLsbD 0) →
    ∃ t', CompletesWith i { s with fHigh := f } t' 0 ∧ t'.readReg .F = t.readReg .F ∧ destination t' i = some d

/-! ### Host access -/

/-- R110. -/
def Obligations.SpGetReturnsSp : Prop :=
  DecodesAs 0x10 (fun _ => .spGet) ∧ ∀ s : State, OnlyAnswers .spGet s s.sp

/-- R111. -/
def Obligations.SpSetLoadsSp : Prop :=
  DecodesAs 0x11 (fun w => .spSet (w.extractLsb' 0 16)) ∧
  ∀ (v : Word16) (s : State), ∃ t, CompletesWith (.spSet v) s t 0 ∧ t.sp = v ∧ RegsSameBut [] s t ∧ t.mem = s.mem

/-- R112. -/
def Obligations.MemGetReturnsTheCell : Prop :=
  DecodesAs 0x12 (fun w => .memGet (w.extractLsb' 0 16)) ∧
  (∀ (a : Word16) (s : State), a ≠ 0xFFFF → ∃ b, s.readMem a = .ok b ∧ OnlyAnswers (.memGet a) s (b.setWidth 16)) ∧
  ∀ s : State, FaultsWith (.memGet 0xFFFF) s .memoryBounds 0xFFFF

/-- R113, R34: only the one cell changes. The premise is the invariant `StepKeepsTheInvariant` keeps. -/
def Obligations.MemSetWritesOneCell : Prop :=
  DecodesAs 0x13 (fun w => .memSet (w.extractLsb' 0 16) (w.extractLsb' 16 8)) ∧
  (∀ (a : Word16) (v : Byte) (s : State), s.Inv → a ≠ 0xFFFF → ∃ t, CompletesWith (.memSet a v) s t 0 ∧
    (∀ a' : Word16, t.readMem a' = if a' = a then .ok v else s.readMem a') ∧ RegsSameBut [] s t ∧ t.sp = s.sp) ∧
  ∀ (v : Byte) (s : State), FaultsWith (.memSet 0xFFFF v) s .memoryBounds 0xFFFF

/-! ### Rules of the whole machine -/

/-- R22, the "w" columns: a command changes only what the access table marks. -/
def Obligations.OnlyMarkedItemsAreWritten : Prop :=
  ∀ (i : Instr) (s t : State), exec i s = .next t →
    (∀ r, writesReg i r = false → t.readReg r = s.readReg r) ∧ (¬writesSp i → t.sp = s.sp) ∧
    (∀ a, ¬writesMem i a → t.readMem a = s.readMem a) ∧ t.cmdIn = s.cmdIn

/-- R22, the "r" columns: of two states that agree on what the access table marks as read, a command gives the same
response, and, where it completes, the same value to everything it writes. -/
def Obligations.OnlyMarkedItemsAreRead : Prop :=
  ∀ (i : Instr) (s s' : State), s.Inv → s'.Inv → (∀ r, readsReg i r = true → s.readReg r = s'.readReg r) →
    (readsCarry i → (s.readReg .F).getLsbD 4 = (s'.readReg .F).getLsbD 4) → (readsSp i → s.sp = s'.sp) →
    (∀ a, readsMem i s a → s.readMem a = s'.readMem a) →
    ∃ (t t' : State) (rsp : Response), exec i s = .next t ∧ exec i s' = .next t' ∧
      t.respOut = s.respOut ++ [rsp] ∧ t'.respOut = s'.respOut ++ [rsp] ∧
      (rsp.fault = none → (∀ r, writesReg i r = true → t.readReg r = t'.readReg r) ∧ (writesSp i → t.sp = t'.sp) ∧
        ∀ a, writesMem i a → t.readMem a = t'.readMem a)

/-- R120: the fault codes, and which command raises which fault with which value: exactly the table. -/
def Obligations.FaultTable : Prop :=
  (⟨none, 0⟩ : Response).faultCode = 0 ∧ CoreFault.code .unknownRegister = 1 ∧ CoreFault.code .unknownFlag = 2 ∧
  CoreFault.code .invalidOperandCode = 3 ∧ CoreFault.code .memoryBounds = 4 ∧ CoreFault.code .invalidOperation = 5 ∧
  (∀ (i : Instr) (s : State) (k : CoreFault) (v : Word16), faultOf s i = some (k, v) → FaultsWith i s k v) ∧
  (∀ (i : Instr) (s : State), faultOf s i = none → ∃ t v, CompletesWith i s t v) ∧
  ∀ (w : CmdWord) (rest : List PortEvent) (s : State), s.cmdIn = .cmd w :: rest → 0x14 ≤ (w.extractLsb' 24 8).toNat →
    step s = .next { s with
      cmdIn := rest, respOut := s.respOut ++ [⟨some .invalidOperation, (w.extractLsb' 24 8).setWidth 16⟩] }

/-- R126: when the response to a command carries a fault, "the state is exactly what it was before the command". -/
def Obligations.FaultsLeaveTheState : Prop :=
  ∀ (w : CmdWord) (rest : List PortEvent) (s t : State) (k : CoreFault) (v : Word16), s.cmdIn = .cmd w :: rest →
    step s = .next t → t.respOut = s.respOut ++ [⟨some k, v⟩] → t = { s with cmdIn := rest, respOut := t.respOut }

/-- R149 (the spec's own inference, marked derived): a well-formed command that forms no address 0xFFFF completes. -/
def Obligations.LegalCommandsNeverFault : Prop :=
  ∀ (i : Instr) (s : State), i.wellFormed = true → (i = .addcHl → pair s.h s.l ≠ 0xFFFF) →
    (∀ a, (i = .memGet a ∨ ∃ v, i = .memSet a v) → a ≠ 0xFFFF) → ∃ t v, CompletesWith i s t v

/-! ### The step, the ports and reset -/

/-- R5, R57, R58: a step with a command word first in the queue takes it and is `exec` of the command it decodes to. -/
def Obligations.StepRunsTheDecodedCommand : Prop :=
  ∀ (w : CmdWord) (rest : List PortEvent) (s : State) (i : Instr), s.cmdIn = .cmd w :: rest → decode w = some i →
    step s = exec i { s with cmdIn := rest }

/-- The model's choice (log entry 1) for R141 "simply waits": with no event presented a step changes nothing. -/
def Obligations.StepWaitsWithoutAnEvent : Prop := ∀ s : State, s.cmdIn = [] → step s = .next s

/-- R24: after reset every piece of state is zero. -/
def Obligations.ResetStateIsZero : Prop :=
  (∀ r : Reg, State.reset.readReg r = 0) ∧ State.reset.sp = 0 ∧
  ∀ a : Word16, a.toNat < 65535 → State.reset.readMem a = .ok 0

/-- R140 with the model's choice of log entry 3: a reset event puts every piece of the block's state to zero; the events
still to come and the responses given stay. -/
def Obligations.ResetEventZeroesTheState : Prop :=
  ∀ (rest : List PortEvent) (s : State), s.cmdIn = .reset :: rest → ∃ t, step s = .next t ∧
    (∀ r : Reg, t.readReg r = 0) ∧ t.sp = 0 ∧ (∀ a : Word16, a.toNat < 65535 → t.readMem a = .ok 0) ∧
    t.cmdIn = rest ∧ t.respOut = s.respOut

/-- In a run of `k` steps every command taken is answered exactly once and nothing else is: the run never stops, takes
the first `k` events, and adds one response per command among them. One response per command is the spec's
(30_encoding.md sections 5 and 7); the two lists are the model's choice (log entries 1 and 2), and so is it that a reset
event is not answered and leaves the later events and the earlier responses (log entry 3). -/
def Obligations.RunsAnswerEachCommandOnce : Prop :=
  ∀ (k : Nat) (s : State), ∃ (t : State) (rs : List Response), Sys2Proof.core.run k s = .next t ∧
    t.cmdIn = s.cmdIn.drop k ∧ t.respOut = s.respOut ++ rs ∧ rs.length = ((s.cmdIn.take k).filter isCommand).length

/-- R18, R31: over a whole run, memory is as it was unless a reset or a `mem_set` word is among the events. -/
def Obligations.RunsWithoutMemSetKeepMemory : Prop :=
  ∀ (k : Nat) (s t : State), (∀ e ∈ s.cmdIn, mayChangeMemory e = false) → Sys2Proof.core.run k s = .next t →
    t.mem = s.mem

/-- R129 with log entries 2, 3 and 4: once a response of a run has carried a fault, no later state of it is unfaulted,
so a safe run is safe at every step on the way. It holds across a reset event because there the responses already given
stay, which is the model's choice (log entry 3). -/
def Obligations.SafeRunsAreSafeAllTheWay : Prop :=
  ∀ (j k : Nat) (s t u : State), SafeRun k s t → j ≤ k → Sys2Proof.core.run j s = .next u → u.faulted = false

/-- The invariant holds at reset. -/
def Obligations.ResetMeetsTheInvariant : Prop := State.reset.Inv

/-- Every step keeps the memory block in its canonical form, with only addresses that name cells (R30). -/
def Obligations.StepKeepsTheInvariant : Prop := ∀ s t : State, s.Inv → step s = .next t → t.Inv
end

