-- ==== Sys2Proof/Laws/State.lean ====
section
/-! SUPPORT. One lemma per field per update of State, and what the flag register and the named registers read after each
write, so that no later proof unfolds a record update. -/

namespace Sys2Proof.Machine

/-! ### Answering -/

section Answer
variable (s : State) (r : Response)

@[simp] theorem answer_a : (s.answer r).a = s.a := rfl
@[simp] theorem answer_b : (s.answer r).b = s.b := rfl
@[simp] theorem answer_c : (s.answer r).c = s.c := rfl
@[simp] theorem answer_d : (s.answer r).d = s.d := rfl
@[simp] theorem answer_e : (s.answer r).e = s.e := rfl
@[simp] theorem answer_h : (s.answer r).h = s.h := rfl
@[simp] theorem answer_l : (s.answer r).l = s.l := rfl
@[simp] theorem answer_fHigh : (s.answer r).fHigh = s.fHigh := rfl
@[simp] theorem answer_sp : (s.answer r).sp = s.sp := rfl
@[simp] theorem answer_mem : (s.answer r).mem = s.mem := rfl
@[simp] theorem answer_cmdIn : (s.answer r).cmdIn = s.cmdIn := rfl
@[simp] theorem answer_respOut : (s.answer r).respOut = s.respOut ++ [r] := rfl
@[simp] theorem answer_flagByte : (s.answer r).flagByte = s.flagByte := rfl
@[simp] theorem answer_readReg (n : Reg) : (s.answer r).readReg n = s.readReg n := by cases n <;> rfl
@[simp] theorem answer_readMem (x : Word16) : (s.answer r).readMem x = s.readMem x := rfl

end Answer

/-! ### Writing F -/

section WriteFlagByte
variable (s : State) (v : Byte)

@[simp] theorem writeFlagByte_a : (s.writeFlagByte v).a = s.a := rfl
@[simp] theorem writeFlagByte_b : (s.writeFlagByte v).b = s.b := rfl
@[simp] theorem writeFlagByte_c : (s.writeFlagByte v).c = s.c := rfl
@[simp] theorem writeFlagByte_d : (s.writeFlagByte v).d = s.d := rfl
@[simp] theorem writeFlagByte_e : (s.writeFlagByte v).e = s.e := rfl
@[simp] theorem writeFlagByte_h : (s.writeFlagByte v).h = s.h := rfl
@[simp] theorem writeFlagByte_l : (s.writeFlagByte v).l = s.l := rfl
@[simp] theorem writeFlagByte_fHigh : (s.writeFlagByte v).fHigh = v.extractLsb' 4 4 := rfl
@[simp] theorem writeFlagByte_sp : (s.writeFlagByte v).sp = s.sp := rfl
@[simp] theorem writeFlagByte_mem : (s.writeFlagByte v).mem = s.mem := rfl
@[simp] theorem writeFlagByte_cmdIn : (s.writeFlagByte v).cmdIn = s.cmdIn := rfl
@[simp] theorem writeFlagByte_respOut : (s.writeFlagByte v).respOut = s.respOut := rfl

end WriteFlagByte

/-! ### Writing the flags of a sum -/

section WriteSumFlags
variable {w : Nat} (o : Sum w) (s : State)

@[simp] theorem writeSumFlags_a : (s.writeSumFlags o).a = s.a := rfl
@[simp] theorem writeSumFlags_b : (s.writeSumFlags o).b = s.b := rfl
@[simp] theorem writeSumFlags_c : (s.writeSumFlags o).c = s.c := rfl
@[simp] theorem writeSumFlags_d : (s.writeSumFlags o).d = s.d := rfl
@[simp] theorem writeSumFlags_e : (s.writeSumFlags o).e = s.e := rfl
@[simp] theorem writeSumFlags_h : (s.writeSumFlags o).h = s.h := rfl
@[simp] theorem writeSumFlags_l : (s.writeSumFlags o).l = s.l := rfl
@[simp] theorem writeSumFlags_sp : (s.writeSumFlags o).sp = s.sp := rfl
@[simp] theorem writeSumFlags_mem : (s.writeSumFlags o).mem = s.mem := rfl
@[simp] theorem writeSumFlags_cmdIn : (s.writeSumFlags o).cmdIn = s.cmdIn := rfl
@[simp] theorem writeSumFlags_respOut : (s.writeSumFlags o).respOut = s.respOut := rfl

end WriteSumFlags

/-! ### Writing HL -/

section WriteHl
variable (s : State) (v : Word16)

@[simp] theorem writeHl_a : (s.writeHl v).a = s.a := rfl
@[simp] theorem writeHl_b : (s.writeHl v).b = s.b := rfl
@[simp] theorem writeHl_c : (s.writeHl v).c = s.c := rfl
@[simp] theorem writeHl_d : (s.writeHl v).d = s.d := rfl
@[simp] theorem writeHl_e : (s.writeHl v).e = s.e := rfl
@[simp] theorem writeHl_h : (s.writeHl v).h = highByte v := rfl
@[simp] theorem writeHl_l : (s.writeHl v).l = lowByte v := rfl
@[simp] theorem writeHl_fHigh : (s.writeHl v).fHigh = s.fHigh := rfl
@[simp] theorem writeHl_sp : (s.writeHl v).sp = s.sp := rfl
@[simp] theorem writeHl_mem : (s.writeHl v).mem = s.mem := rfl
@[simp] theorem writeHl_cmdIn : (s.writeHl v).cmdIn = s.cmdIn := rfl
@[simp] theorem writeHl_respOut : (s.writeHl v).respOut = s.respOut := rfl
@[simp] theorem writeHl_flagByte : (s.writeHl v).flagByte = s.flagByte := rfl

end WriteHl

/-! ### Writing a named register -/

section WriteReg
variable (s : State) (n : Reg) (v : Byte)

@[simp] theorem writeReg_sp : (s.writeReg n v).sp = s.sp := by cases n <;> rfl
@[simp] theorem writeReg_mem : (s.writeReg n v).mem = s.mem := by cases n <;> rfl
@[simp] theorem writeReg_cmdIn : (s.writeReg n v).cmdIn = s.cmdIn := by cases n <;> rfl
@[simp] theorem writeReg_respOut : (s.writeReg n v).respOut = s.respOut := by cases n <;> rfl

/-- A write of one register leaves every other one as it was. -/
theorem readReg_writeReg_other {m n : Reg} (hne : m ≠ n) (s : State) (v : Byte) :
    (s.writeReg n v).readReg m = s.readReg m := by
  cases n <;> cases m <;> first | rfl | exact absurd rfl hne

/-- A write of a register other than F is read back. -/
theorem readReg_writeReg_same {n : Reg} (hn : n ≠ .F) (s : State) (v : Byte) :
    (s.writeReg n v).readReg n = v := by
  cases n <;> first | rfl | exact absurd rfl hn

end WriteReg

end Sys2Proof.Machine
end

