-- ==== Sys2Proof/Laws/Ops.lean ====
section
/-! SUPPORT. One lemma per shared operation that says once everything it can do. -/

namespace Sys2Proof.Machine

/-! ### Ending an operation -/

/-- A completed operation answers fault code 0 and its value. -/
theorem complete_eq (v : Word16) (s : State) :
    complete v s = .next { s with respOut := s.respOut ++ [⟨none, v⟩] } := rfl

/-- Taking a fault changes nothing but the responses given. -/
theorem takeFault_eq (r : Raised) (s : State) :
    takeFault r s = .next { s with respOut := s.respOut ++ [⟨some r.fault, r.value⟩] } := rfl

/-- `attempt` either goes on with the checked operand or takes the fault of the check. -/
theorem attempt_cases {α : Type} {x : Except Raised α} {s : State} {k : α → Result} {out : Result}
    (h : attempt x s k = out) :
    (∃ v, x = .ok v ∧ k v = out) ∨ (∃ r, x = .error r ∧ takeFault r s = out) := by
  cases x with
  | ok v => exact .inl ⟨v, rfl, h⟩
  | error r => exact .inr ⟨r, rfl, h⟩

@[simp] theorem attempt_ok {α : Type} (v : α) (s : State) (k : α → Result) :
    attempt (.ok v) s k = k v := rfl

@[simp] theorem attempt_error {α : Type} (r : Raised) (s : State) (k : α → Result) :
    attempt (.error r) s k = takeFault r s := rfl

/-! ### Operands -/

@[simp] theorem regNamed_regIndex (r : Reg) : regNamed (regIndex r) = .ok r := by cases r <;> rfl

/-- A name is a register's index, or it is 8 to 15 and raises `UnknownRegister`. -/
theorem regNamed_cases (n : NameIx) :
    (∃ r, n = regIndex r ∧ regNamed n = .ok r) ∨
      (8 ≤ n.toNat ∧ regNamed n = .error ⟨.unknownRegister, n.setWidth 16⟩) := by
  obtain ⟨⟨k, hk⟩⟩ := n
  interval_cases k <;> first | exact .inl ⟨_, by rfl, rfl⟩ | exact .inr ⟨by decide +revert, rfl⟩

@[simp] theorem flagNamed_flagIndex (g : Flag) : flagNamed (flagIndex g) = .ok g := by cases g <;> rfl

/-- A flag index is a flag's, or it is 4 to 15 and raises `UnknownFlag`. -/
theorem flagNamed_cases (f : FlagIx) :
    (∃ g, f = flagIndex g ∧ flagNamed f = .ok g) ∨
      (4 ≤ f.toNat ∧ flagNamed f = .error ⟨.unknownFlag, f.setWidth 16⟩) := by
  obtain ⟨⟨k, hk⟩⟩ := f
  interval_cases k <;> first | exact .inl ⟨_, by rfl, rfl⟩ | exact .inr ⟨by decide +revert, rfl⟩

/-- No operand code selects F (R85). -/
theorem r8dec_ne_F (code : Byte) : r8dec code ≠ .register .F := by
  unfold r8dec; split <;> decide

/-- `RESOLVE8` gives a register's value or raises `InvalidOperandCode` with the code. -/
theorem resolve8_cases (code : Byte) (s : State) :
    (∃ r, r8dec code = .register r ∧ resolve8 code s = .ok (s.readReg r)) ∨
      ((r8dec code = .memoryIndirectHl ∨ r8dec code = .invalid) ∧
        resolve8 code s = .error ⟨.invalidOperandCode, code.setWidth 16⟩) := by
  unfold resolve8
  cases hd : r8dec code with
  | register r => exact .inl ⟨r, rfl, rfl⟩
  | memoryIndirectHl => exact .inr ⟨.inl rfl, rfl⟩
  | invalid => exact .inr ⟨.inr rfl, rfl⟩

/-! ### Memory -/

/-- Below the lowest listed address a canonical memory reads as unlisted. -/
theorem lookup_below {cells lo : Nat} {m : Memory} (h : Memory.wfFrom cells lo m = true) {a : Nat} (ha : a < lo) :
    m.lookup a = unlistedByte := by
  induction m generalizing lo with
  | nil => rfl
  | cons p m ih =>
    obtain ⟨k, v⟩ := p
    simp only [Memory.wfFrom, Bool.and_eq_true, decide_eq_true_eq] at h
    obtain ⟨⟨⟨hlo, -⟩, -⟩, hm⟩ := h
    have hk : ¬k = a := by omega
    simpa [Memory.lookup, hk] using ih hm (by omega)

/-- A canonical memory stays canonical from any lower start. -/
theorem wfFrom_mono {cells lo lo' : Nat} {m : Memory} (h : Memory.wfFrom cells lo m = true) (hl : lo' ≤ lo) :
    Memory.wfFrom cells lo' m = true := by
  cases m with
  | nil => rfl
  | cons p m =>
    obtain ⟨k, v⟩ := p
    simp only [Memory.wfFrom, Bool.and_eq_true, decide_eq_true_eq] at h ⊢
    exact ⟨⟨⟨by omega, h.1.1.2⟩, h.1.2⟩, h.2⟩

/-- A canonical memory is canonical from its first listed address. -/
theorem wfFrom_from_head {cells lo k : Nat} {w : Byte} {m : Memory}
    (h : Memory.wfFrom cells lo ((k, w) :: m) = true) : Memory.wfFrom cells k ((k, w) :: m) = true := by
  simp only [Memory.wfFrom, Bool.and_eq_true, decide_eq_true_eq] at h ⊢
  exact ⟨⟨⟨le_refl k, h.1.1.2⟩, h.1.2⟩, h.2⟩

/-- `Memory.update` keeps the canonical form. -/
theorem wfFrom_update {cells lo : Nat} {m : Memory} (h : Memory.wfFrom cells lo m = true) {a : Nat} (ha : lo ≤ a)
    (hc : a < cells) (v : Byte) : Memory.wfFrom cells lo (m.update a v) = true := by
  induction m generalizing lo with
  | nil =>
    by_cases hv : v = unlistedByte <;> simp [Memory.update, Memory.wfFrom, hv, ha, hc]
  | cons p m ih =>
    obtain ⟨k, w⟩ := p
    have h' := h
    simp only [Memory.wfFrom, Bool.and_eq_true, decide_eq_true_eq, bne_iff_ne] at h'
    obtain ⟨⟨⟨hlo, hk⟩, hw⟩, hm⟩ := h'
    unfold Memory.update
    split_ifs with hak hv hak' hv
    · exact h
    · simp only [Memory.wfFrom, Bool.and_eq_true, decide_eq_true_eq, bne_iff_ne]
      exact ⟨⟨⟨ha, by omega⟩, hv⟩, ⟨⟨by omega, hk⟩, hw⟩, hm⟩
    · exact wfFrom_mono hm (by omega)
    · subst hak'; simp [Memory.wfFrom, hv, ha, hc, hm]
    · simp [Memory.wfFrom, hlo, hk, hw, ih hm (by omega)]

/-- A write leaves every other cell alone. -/
theorem lookup_update_other (m : Memory) {a a' : Nat} (hne : a' ≠ a) (v : Byte) :
    (m.update a v).lookup a' = m.lookup a' := by
  induction m with
  | nil => by_cases hv : v = unlistedByte <;> simp [Memory.update, Memory.lookup, hv, hne.symm]
  | cons p m ih =>
    obtain ⟨k, w⟩ := p
    unfold Memory.update
    split_ifs with hak hv hak hv
    · rfl
    · simp [Memory.lookup, hne.symm]
    · simp [Memory.lookup, ← hak, hne.symm]
    · simp [Memory.lookup, ← hak, hne.symm]
    · simp [Memory.lookup, ih]

/-- In a canonical memory a read gives the last byte written to that cell. -/
theorem lookup_update_same {cells lo : Nat} {m : Memory} (h : Memory.wfFrom cells lo m = true) (a : Nat) (v : Byte) :
    (m.update a v).lookup a = v := by
  induction m generalizing lo with
  | nil => by_cases hv : v = unlistedByte <;> simp [Memory.update, Memory.lookup, hv]
  | cons p m ih =>
    obtain ⟨k, w⟩ := p
    have hw := h
    simp only [Memory.wfFrom, Bool.and_eq_true, decide_eq_true_eq] at hw
    obtain ⟨⟨⟨hlo, hk⟩, -⟩, hm⟩ := hw
    unfold Memory.update
    split_ifs with hak hv hak' hv
    · rw [hv]; exact lookup_below (wfFrom_from_head h) hak
    · simp [Memory.lookup]
    · rw [hv, hak']; exact lookup_below hm (by omega)
    · simp [Memory.lookup]
    · have hka : ¬k = a := fun e => hak' e.symm
      simpa [Memory.lookup, hka] using ih hm

/-- `MemRead` of the CORE's block, both ways it can end (R33). -/
theorem readMem_cases (a : Word16) (s : State) :
    (a.toNat < Config.memCells ∧ s.readMem a = .ok (s.mem.lookup a.toNat)) ∨
      (Config.memCells ≤ a.toNat ∧ s.readMem a = .error ⟨.memoryBounds, a⟩) := by
  unfold State.readMem Memory.read
  split_ifs with h
  · exact .inr ⟨h, rfl⟩
  · exact .inl ⟨by omega, rfl⟩

/-- `MemWrite` of the CORE's block, both ways it can end (R34). -/
theorem writeMem_cases (a : Word16) (v : Byte) (s : State) :
    (a.toNat < Config.memCells ∧ s.writeMem a v = .ok { s with mem := s.mem.update a.toNat v }) ∨
      (Config.memCells ≤ a.toNat ∧ s.writeMem a v = .error ⟨.memoryBounds, a⟩) := by
  unfold State.writeMem Memory.write
  split_ifs with h
  · exact .inr ⟨h, rfl⟩
  · exact .inl ⟨by omega, rfl⟩

/-- A write of memory keeps the canonical form. -/
theorem writeMem_wf {a : Word16} {v : Byte} {s s' : State} (h : s.writeMem a v = .ok s') (hs : s.mem.wf = true) :
    s'.mem.wf = true := by
  rcases writeMem_cases a v s with ⟨ha, e⟩ | ⟨-, e⟩
  · rw [e] at h; cases h; exact wfFrom_update hs (Nat.zero_le _) ha v
  · rw [e] at h; cases h

/-! ### The ports -/

/-- What `fetch` takes, in each of its three cases. -/
theorem fetch_cases (s : State) :
    (s.cmdIn = [] ∧ fetch s = .idle) ∨
      (∃ rest, s.cmdIn = .reset :: rest ∧ fetch s = .reset { s with cmdIn := rest }) ∨
      (∃ w rest, s.cmdIn = .cmd w :: rest ∧ fetch s = .command w { s with cmdIn := rest }) := by
  unfold fetch
  split
  · exact .inl ⟨‹_›, rfl⟩
  · exact .inr (.inl ⟨_, ‹_›, rfl⟩)
  · exact .inr (.inr ⟨_, _, ‹_›, rfl⟩)

@[simp] theorem fetch_present (w : CmdWord) (s : State) : fetch (s.present w) = .command w s := rfl

end Sys2Proof.Machine
end

