-- ==== Sys2Proof/Laws/Flags.lean ====
section
/-! SUPPORT. What F reads after each way of writing it, and what the end of an addition does. -/

namespace Sys2Proof.Machine

/-- A byte written to F loses its low nibble. -/
@[simp] theorem flagByte_writeFlagByte (s : State) (v : Byte) : (s.writeFlagByte v).flagByte = v &&& 0xF0 := by
  apply BitVec.eq_of_getLsbD_eq
  intro i hi
  interval_cases i <;> simp [State.flagByte, State.writeFlagByte]

/-- An encoded flag byte has no low nibble to lose. -/
@[simp] theorem flagEnc_and_high (z s hc c : Bool) : flagEnc z s hc c &&& 0xF0 = flagEnc z s hc c := by
  cases z <;> cases s <;> cases hc <;> cases c <;> rfl

/-- After an addition F is the encoded flags of its sum. -/
@[simp] theorem flagByte_writeSumFlags {w : Nat} (o : Sum w) (s : State) :
    (s.writeSumFlags o).flagByte = flagEnc (o.res == 0) false o.hc o.cy := by
  simp only [State.writeSumFlags, flagByte_writeFlagByte, flagEnc_and_high]

/-- Two encoded flag bytes are equal when their flags are. -/
theorem flagEnc_inj {z s hc c z' s' hc' c' : Bool} (h : flagEnc z s hc c = flagEnc z' s' hc' c') :
    z = z' ∧ s = s' ∧ hc = hc' ∧ c = c' := by
  revert h
  cases z <;> cases s <;> cases hc <;> cases c <;> cases z' <;> cases s' <;> cases hc' <;> cases c' <;> decide

/-- The end of an addition into A, in one state. -/
theorem finishA_eq (o : Sum 8) (s : State) :
    finishA o s = .next (({ s.writeSumFlags o with a := o.res } : State).answer ⟨none, 0⟩) := rfl

/-- The end of an addition into HL, in one state. -/
theorem finishHl_eq (o : Sum 16) (s : State) :
    finishHl o s = .next (((s.writeSumFlags o).writeHl o.res).answer ⟨none, 0⟩) := rfl

/-- The end of an addition into SP, in one state. -/
theorem finishSp_eq (o : Sum 16) (s : State) :
    finishSp o s = .next (({ s.writeSumFlags o with sp := o.res } : State).answer ⟨none, 0⟩) := rfl

end Sys2Proof.Machine
end

