-- ==== Sys2Proof/Laws/PerInstr.lean ====
section
/-! SUPPORT. Facts about every command as syntax, one lemma per constructor. -/

namespace Sys2Proof.Laws

open Sys2Proof

/-- A word built from its four fields gives the operation number back. -/
theorem opField_mkWord (op : Byte) (ra rb : Nibble) (d : Word16) : opField (mkWord op ra rb d) = op := by
  apply BitVec.eq_of_getLsbD_eq
  intro i hi
  interval_cases i <;> simp [opField, mkWord]

/-- The encoder writes the operation number of R47 into bits 31:24. -/
def EncodedOp.Statement (i : Instr) : Prop := opField (encode i) = i.opNumber

theorem EncodedOp.get (n : NameIx) : EncodedOp.Statement (.get n) := opField_mkWord _ _ _ _

theorem EncodedOp.set (n : NameIx) (v : Byte) : EncodedOp.Statement (.set n v) := opField_mkWord _ _ _ _

theorem EncodedOp.getPair (hi lo : NameIx) : EncodedOp.Statement (.getPair hi lo) := opField_mkWord _ _ _ _

theorem EncodedOp.setPair (hi lo : NameIx) (v : Word16) : EncodedOp.Statement (.setPair hi lo v) := opField_mkWord _ _ _ _

theorem EncodedOp.flagShift (f : FlagIx) : EncodedOp.Statement (.flagShift f) := opField_mkWord _ _ _ _

theorem EncodedOp.getFlags : EncodedOp.Statement .getFlags := opField_mkWord _ _ _ _

theorem EncodedOp.getFlag (f : FlagIx) : EncodedOp.Statement (.getFlag f) := opField_mkWord _ _ _ _

theorem EncodedOp.setFlag (f : FlagIx) (b : Bool) : EncodedOp.Statement (.setFlag f b) := opField_mkWord _ _ _ _

theorem EncodedOp.operandRegister (code : Byte) : EncodedOp.Statement (.operandRegister code) := opField_mkWord _ _ _ _

theorem EncodedOp.add (code : Byte) : EncodedOp.Statement (.add code) := opField_mkWord _ _ _ _

theorem EncodedOp.addc (code : Byte) : EncodedOp.Statement (.addc code) := opField_mkWord _ _ _ _

theorem EncodedOp.addcHl : EncodedOp.Statement .addcHl := opField_mkWord _ _ _ _

theorem EncodedOp.addN8 (v : Byte) : EncodedOp.Statement (.addN8 v) := opField_mkWord _ _ _ _

theorem EncodedOp.addHlR16 (v : Word16) : EncodedOp.Statement (.addHlR16 v) := opField_mkWord _ _ _ _

theorem EncodedOp.addHlSp : EncodedOp.Statement .addHlSp := opField_mkWord _ _ _ _

theorem EncodedOp.addSpE8 (e : Byte) : EncodedOp.Statement (.addSpE8 e) := opField_mkWord _ _ _ _

theorem EncodedOp.spGet : EncodedOp.Statement .spGet := opField_mkWord _ _ _ _

theorem EncodedOp.spSet (v : Word16) : EncodedOp.Statement (.spSet v) := opField_mkWord _ _ _ _

theorem EncodedOp.memGet (a : Word16) : EncodedOp.Statement (.memGet a) := opField_mkWord _ _ _ _

theorem EncodedOp.memSet (a : Word16) (v : Byte) : EncodedOp.Statement (.memSet a v) := opField_mkWord _ _ _ _

end Sys2Proof.Laws
end

