-- ==== Sys2Proof/Tests/Slice0.lean ====
section
/-! SUPPORT. Tests on fixed values. Expected results are those of spec/95_test_vectors.md (the vector's id stands at each
test) or of the worked examples of the rules; then, for every statement with hypotheses, concrete values that meet them. -/

namespace Sys2Proof.Tests

open Sys2Proof Sys2Proof.Machine Sys2Proof.Statements

/-! ### Helpers -/

/-- The next state of an outcome, if it has one. -/
def after : Result → Option State
  | .next t => some t
  | .fault _ => none
  | .refused _ => none

/-- One step on a command word presented to a state. -/
def ran (w : CmdWord) (s : State) : Option State := after (step (s.present w))

/-- A and F after one step on a command word. -/
def afterA (w : CmdWord) (s : State) : Option (Byte × Byte) := (ran w s).map fun t => (t.a, t.flagByte)

/-- HL and F. -/
def afterHl (w : CmdWord) (s : State) : Option (Word16 × Byte) := (ran w s).map fun t => (t.hl, t.flagByte)

/-- SP and F. -/
def afterSp (w : CmdWord) (s : State) : Option (Word16 × Byte) := (ran w s).map fun t => (t.sp, t.flagByte)

/-- The fault codes and values of the responses. -/
def answers (w : CmdWord) (s : State) : Option (List (BitVec 3 × Word16)) :=
  (ran w s).map fun t => t.respOut.map fun r => (r.faultCode, r.value)

/-- The reset state with these bytes in A and B and this flag byte. -/
def withAb (a b f : Byte) : State := { State.reset with a := a, b := b }.writeFlagByte f

/-- The reset state with these values in HL and SP. -/
def withHlSp (hl sp : Word16) : State := { State.reset with sp := sp }.writeHl hl

/-- A state with every register its own value, for tests that a read takes the right one. -/
def distinct : State :=
  { State.reset with
    a := 0xA0, b := 0xA1, c := 0xA2, d := 0xA3, e := 0xA4, fHigh := 0xA, h := 0xA6, l := 0xA7, sp := 0xBEEF
    mem := [(0xA6A7, 0x5A)] }

/-! ### Well-formedness: each check of 30_encoding.md R54 refuses an ill-formed term -/

theorem test_wf_refuses_names :
    (Instr.get 8).wellFormed = false ∧ (Instr.set 15 0).wellFormed = false ∧
    (Instr.getPair 8 1).wellFormed = false ∧ (Instr.getPair 1 9).wellFormed = false ∧
    (Instr.setPair 10 1 0).wellFormed = false ∧ (Instr.setPair 6 8 0).wellFormed = false := by decide

theorem test_wf_refuses_flags :
    (Instr.flagShift 4).wellFormed = false ∧ (Instr.getFlag 15).wellFormed = false ∧
    (Instr.setFlag 7 true).wellFormed = false := by decide

theorem test_wf_refuses_codes :
    (Instr.operandRegister 8).wellFormed = false ∧ (Instr.add 8).wellFormed = false ∧
    (Instr.addc 255).wellFormed = false ∧ (Instr.add 6).wellFormed = false ∧ (Instr.addc 6).wellFormed = false := by
  decide

theorem test_wf_accepts_the_last_legal_values :
    (Instr.get 7).wellFormed = true ∧ (Instr.setPair 7 7 0).wellFormed = true ∧ (Instr.getFlag 3).wellFormed = true ∧
    (Instr.operandRegister 6).wellFormed = true ∧ (Instr.add 7).wellFormed = true ∧
    (Instr.memGet 0xFFFF).wellFormed = true := by decide

/-! ### Decoding: the words the spec writes out, for every constructor -/

/-- 40_register_file.md R67 to R70, 95_test_vectors.md RF-22, PR-20. -/
theorem test_decode_register_file :
    decode 0x00F00000 = some (.get 15) ∧ decode 0x0100003C = some (.set 0 0x3C) ∧
    decode 0x02670000 = some (.getPair 6 7) ∧ decode 0x0368BEEF = some (.setPair 6 8 0xBEEF) := by decide

/-- 41_flags.md R77 to R80, FL-18 and X-4. -/
theorem test_decode_flags :
    decode 0x04200000 = some (.flagShift 2) ∧ decode 0x05FFFFFF = some .getFlags ∧
    decode 0x06300000 = some (.getFlag 3) ∧ decode 0x07300001 = some (.setFlag 3 true) ∧
    decode 0x0710FFFE = some (.setFlag 1 false) := by decide

/-- DC-10, A-11, A8-11, M-1, N-1. -/
theorem test_decode_add8 :
    decode 0x08000106 = some (.operandRegister 6) ∧ decode 0x0900FF00 = some (.add 0) ∧
    decode 0x0A000007 = some (.addc 7) ∧ decode 0x0B000000 = some .addcHl ∧
    decode 0x0C0000C6 = some (.addN8 0xC6) := by decide

/-- W-9, WS-1, S7. -/
theorem test_decode_add16 :
    decode 0x0D00FFFF = some (.addHlR16 0xFFFF) ∧ decode 0x0E000000 = some .addHlSp ∧
    decode 0x0F0000E9 = some (.addSpE8 0xE9) := by decide

/-- H-1 to H-4. -/
theorem test_decode_host_access :
    decode 0x10000000 = some .spGet ∧ decode 0x1100BEEF = some (.spSet 0xBEEF) ∧
    decode 0x1200FFFE = some (.memGet 0xFFFE) ∧ decode 0x13A5FFFE = some (.memSet 0xFFFE 0xA5) := by decide

/-- X-1 to X-3. -/
theorem test_decode_reserved : decode 0x14000000 = none ∧ decode 0x20000000 = none ∧ decode 0xFF123456 = none := by
  decide

/-- The encoder writes the words of R60, R77, R113 and S6. -/
theorem test_encode :
    encode (.getPair 3 4) = 0x02340000 ∧ encode (.setPair 1 2 0x1234) = 0x03121234 ∧
    encode (.flagShift 2) = 0x04200000 ∧ encode (.memSet 0x1234 0x0F) = 0x130F1234 ∧
    encode (.addSpE8 0xF1) = 0x0F0000F1 := by decide

/-- A table row's bits go through the same decoder, and `withFetchWord` makes the next step run them. -/
theorem test_table_word :
    decodeTableWord 32 0x0100003C = some (.set 0 0x3C) ∧
    (after (step (State.reset.withFetchWord 32 0x0100003C))).map State.a = some 0x3C := by decide

/-! ### The register file -/

/-- RF-9 to RF-16. -/
theorem test_get :
    answers 0x00000000 distinct = some [(0, 0xA0)] ∧ answers 0x00100000 distinct = some [(0, 0xA1)] ∧
    answers 0x00200000 distinct = some [(0, 0xA2)] ∧ answers 0x00300000 distinct = some [(0, 0xA3)] ∧
    answers 0x00400000 distinct = some [(0, 0xA4)] ∧ answers 0x00500000 distinct = some [(0, 0xA0)] ∧
    answers 0x00600000 distinct = some [(0, 0xA6)] ∧ answers 0x00700000 distinct = some [(0, 0xA7)] := by decide

/-- RF-21. -/
theorem test_get_unknown : answers 0x00800000 distinct = some [(1, 8)] := by decide

/-- RF-6: the low nibble of F is dropped. -/
theorem test_set_f : (ran 0x015000A5 State.reset).map State.flagByte = some 0xA0 := by decide

/-- RF-23. -/
theorem test_set_unknown :
    ran 0x01800001 State.reset = some { State.reset with respOut := [⟨some .unknownRegister, 8⟩] } := by decide

/-- PR-5. -/
theorem test_get_pair_order : answers 0x02210000 { State.reset with b := 0x12, c := 0x34 } = some [(0, 0x3412)] := by
  decide

/-- PR-19: the first offending name is reported. -/
theorem test_get_pair_first_unknown : answers 0x02AB0000 State.reset = some [(1, 0x000A)] := by decide

/-- PR-9 and PR-13. -/
theorem test_set_pair :
    (ran 0x03111234 State.reset).map State.b = some 0x34 ∧
    (ran 0x0350FF34 State.reset).map (fun t => (t.flagByte, t.a)) = some (0xF0, 0x34) := by decide

/-- PR-20: no partial write. -/
theorem test_set_pair_no_partial_write :
    ran 0x0368BEEF distinct = some { distinct with respOut := [⟨some .unknownRegister, 8⟩] } := by decide

/-! ### The flags -/

/-- FL-3. -/
theorem test_flag_shift : answers 0x04200000 State.reset = some [(0, 5)] := by decide

/-- FL-6. -/
theorem test_flag_shift_unknown : answers 0x04F00000 State.reset = some [(2, 15)] := by decide

/-- R78's example. -/
theorem test_get_flags : answers 0x05000000 (withAb 0 0 0xB0) = some [(0, 0x00B0)] := by decide

/-- R79's examples: with F = 0xB0, S is 0 and C is 1. -/
theorem test_get_flag :
    answers 0x06100000 (withAb 0 0 0xB0) = some [(0, 0)] ∧ answers 0x06300000 (withAb 0 0 0xB0) = some [(0, 1)] := by
  decide

/-- FL-20. -/
theorem test_get_flag_unknown : answers 0x06400000 (withAb 0 0 0x10) = some [(2, 4)] := by decide

/-- FL-13 and FL-9. -/
theorem test_set_flag :
    (ran 0x07000000 (withAb 0 0 0xF0)).map State.flagByte = some 0x70 ∧
    (ran 0x07100001 (withAb 0 0 0x90)).map State.flagByte = some 0xD0 := by decide

/-- FL-19. -/
theorem test_set_flag_unknown : answers 0x07700001 (withAb 0 0 0x10) = some [(2, 7)] := by decide

/-! ### The operand decoder -/

/-- DC-0, DC-5, DC-6, DC-7. -/
theorem test_operand_register :
    answers 0x08000000 distinct = some [(0, 1)] ∧ answers 0x08000005 distinct = some [(0, 7)] ∧
    answers 0x08000006 distinct = some [(0, 0x10)] ∧ answers 0x08000007 distinct = some [(0, 0)] := by decide

/-- DC-8, DC-9. -/
theorem test_operand_register_invalid :
    answers 0x08000008 distinct = some [(3, 8)] ∧ answers 0x080000FF distinct = some [(3, 0xFF)] := by decide

/-! ### Additions into A -/

/-- S2, S3, A-3, A-5. -/
theorem test_add :
    afterA 0x09000000 (withAb 0xFF 0x01 0) = some (0x00, 0xB0) ∧
    afterA 0x09000000 (withAb 0x4F 0x01 0) = some (0x50, 0x20) ∧
    afterA 0x09000007 (withAb 0x88 0x00 0) = some (0x10, 0x30) ∧
    afterA 0x09000003 { withAb 0xF0 0 0 with e := 0x10 } = some (0x00, 0x90) := by decide

/-- A-8: code 6 faults and reads no memory. -/
theorem test_add_code6 : ran 0x09000006 distinct =
    some { distinct with respOut := [⟨some .invalidOperandCode, 6⟩] } := by decide

/-- A8-3, A8-5, A8-8, A8-10, A8-12. -/
theorem test_addc :
    afterA 0x0A000000 (withAb 0x0F 0x00 0x10) = some (0x10, 0x00) ∧
    afterA 0x0A000000 (withAb 0x12 0xFF 0x10) = some (0x12, 0x20) ∧
    afterA 0x0A000000 (withAb 0xFF 0x00 0x10) = some (0x00, 0x90) ∧
    afterA 0x0A000007 (withAb 0x80 0x00 0x10) = some (0x01, 0x10) ∧
    afterA 0x0A000000 (withAb 0x01 0xFE 0xF0) = some (0x00, 0x90) := by decide

/-- A8-13. -/
theorem test_addc_code6 : answers 0x0A000006 (withAb 1 0 0x10) = some [(3, 6)] := by decide

/-- M-1, M-3. -/
theorem test_addc_hl :
    afterA 0x0B000000 { withAb 0x01 0 0x10 with h := 0x12, l := 0x34, mem := [(0x1234, 0x0F)] } = some (0x11, 0x20) ∧
    afterA 0x0B000000 { withAb 0x22 0 0x10 with h := 0xFF, l := 0xFE, mem := [(0xFFFE, 0xFF)] } = some (0x22, 0x20) := by
  decide

/-- M-4. -/
theorem test_addc_hl_bounds : answers 0x0B000000 { withAb 0x22 0 0x10 with h := 0xFF, l := 0xFF } =
    some [(4, 0xFFFF)] := by decide

/-- N-1, N-2, N-6. -/
theorem test_add_n8 :
    afterA 0x0C0000C6 (withAb 0x3A 0 0) = some (0x00, 0xB0) ∧ afterA 0x0C0000FF (withAb 0x3C 0 0) = some (0x3B, 0x30) ∧
    afterA 0x0C000064 (withAb 0xC8 0 0) = some (0x2C, 0x10) := by decide

/-! ### 16-bit additions -/

/-- S4, S5, W-3, W-7. -/
theorem test_add_hl_r16 :
    afterHl 0x0D000001 (withHlSp 0x8FFF 0) = some (0x9000, 0x20) ∧
    afterHl 0x0D000001 (withHlSp 0xFFFF 0) = some (0x0000, 0xB0) ∧
    afterHl 0x0D000001 (withHlSp 0x00FF 0) = some (0x0100, 0x00) ∧
    afterHl 0x0D001000 (withHlSp 0xF000 0) = some (0x0000, 0x90) := by decide

/-- WS-1, WS-5. -/
theorem test_add_hl_sp :
    afterHl 0x0E000000 (withHlSp 0x1000 0xF000) = some (0x0000, 0x90) ∧
    afterHl 0x0E000000 (withHlSp 0xFFFF 0xFFFF) = some (0xFFFE, 0x30) := by decide

/-- E-4, E-6, E-7: the non-negative branch. -/
theorem test_add_sp_e8_nonneg :
    afterSp 0x0F000001 (withHlSp 0 0x00FF) = some (0x0100, 0x20) ∧
    afterSp 0x0F000008 (withHlSp 0 0xFFF8) = some (0x0000, 0xB0) ∧
    afterSp 0x0F00007F (withHlSp 0 0xFF80) = some (0xFFFF, 0x00) := by decide

/-- S6, S7, E-12, E-14: the negative branch. -/
theorem test_add_sp_e8_neg :
    afterSp 0x0F0000F1 (withHlSp 0 0x000F) = some (0x0000, 0xB0) ∧
    afterSp 0x0F0000E9 (withHlSp 0 0x000F) = some (0xFFF8, 0x20) ∧
    afterSp 0x0F0000F0 (withHlSp 0 0x0005) = some (0xFFF5, 0x20) ∧
    afterSp 0x0F0000FF (withHlSp 0 0x0010) = some (0x000F, 0x10) := by decide

/-! ### Host access -/

/-- H-2. -/
theorem test_sp_get : answers 0x10000000 distinct = some [(0, 0xBEEF)] := by decide

/-- H-1. -/
theorem test_sp_set : (ran 0x1100BEEF State.reset).map State.sp = some 0xBEEF := by decide

/-- H-4, H-7. -/
theorem test_mem_get :
    answers 0x1200FFFE { State.reset with mem := [(0xFFFE, 0xA5)] } = some [(0, 0x00A5)] ∧
    answers 0x12000000 State.reset = some [(0, 0)] := by decide

/-- H-5. -/
theorem test_mem_get_bounds : answers 0x1200FFFF State.reset = some [(4, 0xFFFF)] := by decide

/-- H-3; and a cell written with zero is like a cell never written. -/
theorem test_mem_set :
    (ran 0x13A5FFFE State.reset).map State.mem = some [(0xFFFE, 0xA5)] ∧
    (ran 0x1300A6A7 distinct).map State.mem = some [] := by decide

/-- H-6. -/
theorem test_mem_set_bounds : answers 0x1312FFFF State.reset = some [(4, 0xFFFF)] := by decide

/-! ### Rejected words, reset events, waiting -/

/-- X-3. -/
theorem test_reserved_op : ran 0xFF123456 distinct =
    some { distinct with respOut := [⟨some .invalidOperation, 0xFF⟩] } := by decide

/-- R140: a reset event zeroes the block; the command behind it stays to come. -/
theorem test_reset_event : after (step { distinct with cmdIn := [.reset, .cmd 0x05000000] }) =
    some { State.reset with cmdIn := [.cmd 0x05000000] } := by decide

/-- R141: with no event presented nothing happens. -/
theorem test_idle : after (step distinct) = some distinct := by decide

/-! ### Witnesses: for every statement with hypotheses, values that meet them -/

theorem test_witness_decode : decode 0x05FFFFFF = some .getFlags := by decide

theorem test_witness_reserved_op :
    (State.reset.present 0x14000000).cmdIn = .cmd 0x14000000 :: [] ∧
    0x14 ≤ ((0x14000000 : CmdWord).extractLsb' 24 8).toNat ∧ 0x14 ≤ ((0xFFFFFFFF : CmdWord).extractLsb' 24 8).toNat := by
  decide

theorem test_witness_unknown_names : 8 ≤ (8 : NameIx).toNat ∧ 8 ≤ (15 : NameIx).toNat ∧
    regNamed 8 = .error ⟨.unknownRegister, 8⟩ ∧ regNamed 7 = .ok .L := by
  refine ⟨by decide, by decide, rfl, rfl⟩

theorem test_witness_unknown_flags : 4 ≤ (4 : FlagIx).toNat ∧ 4 ≤ (15 : FlagIx).toNat ∧
    flagNamed 4 = .error ⟨.unknownFlag, 4⟩ ∧ flagNamed 3 = .ok .C := by
  refine ⟨by decide, by decide, rfl, rfl⟩

/-- R76: bits 4 and 7, with the low nibble zero before. -/
theorem test_witness_flag_updater :
    (4 ≤ 4 ∧ 4 ≤ 7 ∧ 7 ≤ 7) ∧ (0xF0 : Byte) &&& 0x0F = 0 ∧ flagUpd 0xF0 4 false = 0xE0 ∧ flagUpd 0x10 7 true = 0x90 := by
  decide

/-- Codes 5, 6, 7, 8 and 255: each clause of R85 and R87 at its boundary. -/
theorem test_witness_operand_codes :
    r8dec 5 = .register .L ∧ r8dec 7 = .register .A ∧ r8dec 6 = .memoryIndirectHl ∧ 8 ≤ (8 : Byte).toNat ∧
    8 ≤ (255 : Byte).toNat ∧ r8dec 8 = .invalid ∧ r8dec 255 = .invalid := by decide

/-- The sign bit of the immediate: 0x00 and 0x7F, 0x80 and 0xFF. -/
theorem test_witness_sp_branches :
    (0x00 : Byte).getLsbD 7 = false ∧ (0x7F : Byte).getLsbD 7 = false ∧ (0x80 : Byte).getLsbD 7 = true ∧
    (0xFF : Byte).getLsbD 7 = true := by decide

/-- ADC_WRAP: the one input where the settings differ, and its neighbours. -/
theorem test_witness_adc_wrap :
    (addcSum true 0 0xFF true).cy = false ∧ (addcSum false 0 0xFF true).cy = true ∧
    (addcSum true 1 0xFE true).cy = (addcSum false 1 0xFE true).cy ∧
    (addcSum true 1 0xFF false).cy = (addcSum false 1 0xFF false).cy := by decide

/-- The last cell and the address after it. -/
theorem test_witness_last_cell :
    (0xFFFE : Word16).toNat < 65535 ∧ (0xFFFE : Word16) ≠ 0xFFFF ∧ ¬(0xFFFF : Word16).toNat < 65535 := by decide

/-- `set_pair` on two names: different, and one twice. -/
theorem test_witness_pair_names : Reg.A ≠ Reg.F ∧ regIndex .A = 0 ∧ regIndex .L = 7 := by decide

/-- The round trips of R71: commands on F, on one register twice, and reads, from a state with content. -/
theorem test_witness_register_round_trips :
    (∃ t, exec (.set (regIndex .F) 0xFF) distinct = .next t) ∧
    (∃ t, exec (.setPair (regIndex .B) (regIndex .B) 0x1234) distinct = .next t) ∧
    (∃ t, exec (.setPair (regIndex .A) (regIndex .F) 0x12FF) distinct = .next t) ∧
    (∃ t, exec (.get 8) distinct = .next t) ∧ ∃ t, exec (.getPair 6 7) distinct = .next t :=
  ⟨⟨_, rfl⟩, ⟨_, rfl⟩, ⟨_, rfl⟩, ⟨_, rfl⟩, ⟨_, rfl⟩⟩

theorem test_witness_flag_laws :
    (∃ t, exec (.setFlag (flagIndex .Z) true) distinct = .next t) ∧
    ∃ t, exec (.setFlag (flagIndex .C) false) distinct = .next t := ⟨⟨_, rfl⟩, ⟨_, rfl⟩⟩

/-- S goes from 0 to 1 in each of the ways R14 lists. -/
theorem test_witness_subtract_flag :
    (State.reset.readReg .F).getLsbD 6 = false ∧
    (∃ t, exec (.setFlag (flagIndex .S) true) State.reset = .next t ∧ (t.readReg .F).getLsbD 6 = true) ∧
    (∃ t, exec (.set (regIndex .F) 0x40) State.reset = .next t ∧ (t.readReg .F).getLsbD 6 = true) ∧
    (∃ t, exec (.setPair 0 (regIndex .F) 0x0040) State.reset = .next t ∧ (t.readReg .F).getLsbD 6 = true) ∧
    ∃ t, exec (.setPair (regIndex .F) 0 0x4000) State.reset = .next t ∧ (t.readReg .F).getLsbD 6 = true :=
  ⟨by decide, ⟨_, rfl, by decide⟩, ⟨_, rfl, by decide⟩, ⟨_, rfl, by decide⟩, ⟨_, rfl, by decide⟩⟩

/-- `addc_hl` below the bound, at the last cell, and at the missing one. -/
theorem test_witness_addc_hl_addresses :
    pair 0xFF 0xFE ≠ 0xFFFF ∧ pair 0xFF 0xFF = 0xFFFF ∧ pair distinct.h distinct.l ≠ 0xFFFF := by decide

theorem test_witness_eight_bit_laws :
    resolve8 7 distinct = .ok 0xA0 ∧ distinct.readMem (pair distinct.h distinct.l) = .ok 0x5A ∧
    { distinct with h := 0xFF, l := 0xFE }.readMem (pair 0xFF 0xFE) = .ok 0 := by
  refine ⟨rfl, rfl, rfl⟩

theorem test_witness_sixteen_bit_laws : distinct.sp = 0xBEEF := by decide

/-- A completed addition with its destination, and another flag nibble with the same carry. -/
theorem test_witness_addition_contract :
    (∃ t d, CompletesWith (.addc 7) distinct t 0 ∧ destination t (.addc 7) = some d) ∧
    (∃ t d, CompletesWith (.addHlR16 1) distinct t 0 ∧ destination t (.addHlR16 1) = some d) ∧
    (∃ t d, CompletesWith (.addSpE8 0x80) distinct t 0 ∧ destination t (.addSpE8 0x80) = some d) ∧
    (0x4 : Nibble).getLsbD 0 = distinct.fHigh.getLsbD 0 ∧ (0x4 : Nibble) ≠ distinct.fHigh :=
  ⟨⟨_, _, ⟨rfl, rfl, rfl⟩, rfl⟩, ⟨_, _, ⟨rfl, rfl, rfl⟩, rfl⟩, ⟨_, _, ⟨rfl, rfl, rfl⟩, rfl⟩, by decide, by decide⟩

theorem test_witness_invariant : State.reset.mem.wf = true ∧ distinct.mem.wf = true ∧
    (0xFFFE : Word16) ≠ 0xFFFF := by decide

/-- Of `mem_set`: next state, and items the table does not mark. -/
theorem test_witness_writes :
    (∃ t, exec (.memSet 0xFFFE 0xA5) distinct = .next t) ∧ writesReg (.memSet 0xFFFE 0xA5) .A = false ∧
    ¬writesSp (.memSet 0xFFFE 0xA5) ∧ ¬writesMem (.memSet 0xFFFE 0xA5) 0xFFFD ∧
    writesMem (.memSet 0xFFFE 0xA5) 0xFFFE := by
  refine ⟨⟨_, rfl⟩, rfl, ?_, ?_, ⟨_, rfl⟩⟩ <;> rintro (⟨_, h⟩ | ⟨_, h⟩) <;> simp_all

/-- Of `addc_hl`: two different states that agree on what it reads. -/
theorem test_witness_reads :
    let s' := { distinct with b := 0, c := 1, d := 2, e := 3, fHigh := 0x4, sp := 7, mem := [(0, 1), (0xA6A7, 0x5A)] }
    distinct.Inv ∧ s'.Inv ∧ (∀ r, readsReg .addcHl r = true → distinct.readReg r = s'.readReg r) ∧
    (readsCarry .addcHl → (distinct.readReg .F).getLsbD 4 = (s'.readReg .F).getLsbD 4) ∧
    (readsSp .addcHl → distinct.sp = s'.sp) ∧
    (∀ a, readsMem .addcHl distinct a → distinct.readMem a = s'.readMem a) ∧ distinct ≠ s' := by
  refine ⟨rfl, rfl, ?_, fun _ => rfl, ?_, ?_, by decide⟩
  · intro r; cases r <;> decide
  · rintro (h | ⟨_, h⟩ | h) <;> cases h
  · rintro a (⟨-, rfl⟩ | h)
    · rfl
    · cases h

/-- The fault table at the edges of each range, and commands it does not list. -/
theorem test_witness_fault_table :
    faultOf distinct (.getPair 7 8) = some (.unknownRegister, 8) ∧
    faultOf distinct (.setPair 15 8 0) = some (.unknownRegister, 15) ∧
    faultOf distinct (.setFlag 4 true) = some (.unknownFlag, 4) ∧
    faultOf distinct (.operandRegister 6) = none ∧ faultOf distinct (.add 6) = some (.invalidOperandCode, 6) ∧
    faultOf distinct (.addc 8) = some (.invalidOperandCode, 8) ∧ faultOf distinct (.add 7) = none ∧
    faultOf distinct (.memGet 0xFFFE) = none ∧ faultOf distinct (.memSet 0xFFFF 0) = some (.memoryBounds, 0xFFFF) ∧
    faultOf distinct .addcHl = none ∧ faultOf (withHlSp 0xFFFF 0) .addcHl = some (.memoryBounds, 0xFFFF) := by decide

theorem test_witness_fault_leaves_state :
    ∃ t, (distinct.present 0x13A5FFFF).cmdIn = .cmd 0x13A5FFFF :: [] ∧ step (distinct.present 0x13A5FFFF) = .next t ∧
      t.respOut = distinct.respOut ++ [⟨some .memoryBounds, 0xFFFF⟩] := ⟨_, rfl, rfl, rfl⟩

theorem test_witness_legal :
    (Instr.memSet 0xFFFE 1).wellFormed = true ∧ (Instr.add 7).wellFormed = true ∧ Instr.addcHl.wellFormed = true ∧
    pair distinct.h distinct.l ≠ 0xFFFF ∧ (0xFFFE : Word16) ≠ 0xFFFF := by decide

theorem test_witness_step_runs :
    (distinct.present 0x130F1234).cmdIn = .cmd 0x130F1234 :: [] ∧ decode 0x130F1234 = some (.memSet 0x1234 0x0F) := by
  decide

theorem test_witness_waits : distinct.cmdIn = [] := by decide

theorem test_witness_reset_event : { distinct with cmdIn := [.reset, .cmd 0] }.cmdIn = .reset :: [.cmd 0] := by decide

/-- A run of three commands, `set_pair(H, L, 0x1234)`, `addc_hl()`, `add(6)`: none can change memory. -/
theorem test_witness_memory_kept :
    let s := { distinct with cmdIn := [.cmd 0x03671234, .cmd 0x0B000000, .cmd 0x09000006] }
    (∀ e ∈ s.cmdIn, mayChangeMemory e = false) ∧ ∃ t, Sys2Proof.core.run 3 s = .next t := by
  refine ⟨by decide, ⟨_, rfl⟩⟩

theorem test_witness_safe_run :
    let s := { distinct with cmdIn := [.cmd 0x03671234, .cmd 0x0B000000] }
    (∃ t, SafeRun 2 s t) ∧ 1 ≤ 2 ∧ ∃ u, Sys2Proof.core.run 1 s = .next u :=
  ⟨⟨_, rfl, by decide⟩, by decide, ⟨_, rfl⟩⟩

theorem test_witness_step_keeps_invariant :
    distinct.Inv ∧ ∃ t, step (distinct.present 0x13A5FFFE) = .next t ∧ t.mem = [(0xA6A7, 0x5A), (0xFFFE, 0xA5)] :=
  ⟨rfl, ⟨_, rfl, by decide⟩⟩

end Sys2Proof.Tests
end

section
/-! ### The step on a command word -/

namespace Sys2Proof.Machine

/-- R58: a word that heads the queue is the one taken. -/
theorem fetch_of_cmdIn_cmd {s : State} {w : CmdWord} {rest : List PortEvent} (h : s.cmdIn = .cmd w :: rest) :
    fetch s = .command w { s with cmdIn := rest } := by
  simp only [fetch, h]

/-- R5, R57: a word taken that decodes is executed on the state it was taken from. -/
theorem step_of_fetch_command {s s' : State} {w : CmdWord} {i : Instr} (hf : fetch s = .command w s')
    (hd : decode w = some i) : step s = exec i s' := by
  simp only [step, hf, hd]

/-- Settles O52: the word at the head of the queue is taken, and the step dispatches on its decoding. -/
theorem stepRunsTheDecodedCommand : Obligations.StepRunsTheDecodedCommand := by
  intro w rest s i hq hd
  exact step_of_fetch_command (fetch_of_cmdIn_cmd hq) hd

end Sys2Proof.Machine
end

section
/-! ### The register file under writes, and what a command writes (10_state.md R13, R14, R22) -/

namespace Sys2Proof.Machine

open Sys2Proof.Statements

/-! #### Register names and register writes -/

@[simp] theorem regIndex_inj {m n : Reg} : regIndex m = regIndex n ↔ m = n :=
  ⟨fun h => by simpa using congrArg regNamed h, congrArg regIndex⟩

theorem eq_regIndex_of_regNamed {n : NameIx} {r : Reg} (h : regNamed n = .ok r) : n = regIndex r := by
  obtain ⟨r', hn, hr'⟩ | ⟨-, he⟩ := regNamed_cases n
  · rw [hr'] at h; cases h; exact hn
  · rw [he] at h; cases h

theorem eq_flagIndex_of_flagNamed {f : FlagIx} {g : Flag} (h : flagNamed f = .ok g) : f = flagIndex g := by
  obtain ⟨g', hf, hg'⟩ | ⟨-, he⟩ := flagNamed_cases f
  · rw [hg'] at h; cases h; exact hf
  · rw [he] at h; cases h

theorem eq_regIndex_of_regsNamed {hi lo : NameIx} {p : Reg × Reg} (h : regsNamed hi lo = .ok p) :
    hi = regIndex p.1 ∧ lo = regIndex p.2 := by
  unfold regsNamed at h
  split at h
  · cases h
  · split at h
    · cases h
    · cases h; exact ⟨eq_regIndex_of_regNamed ‹_›, eq_regIndex_of_regNamed ‹_›⟩

/-- The flags of a sum are a write of F. -/
theorem writeSumFlags_eq_writeReg {w : Nat} (o : Sum w) (s : State) :
    s.writeSumFlags o = s.writeReg .F (sumFlags o) := rfl

/-- A write of HL is a write of H and of L. -/
theorem writeHl_eq_writeReg (v : Word16) (s : State) :
    s.writeHl v = (s.writeReg .H (highByte v)).writeReg .L (lowByte v) := rfl

@[simp] theorem readReg_withSp (s : State) (v : Word16) (r : Reg) : { s with sp := v }.readReg r = s.readReg r := by
  cases r <;> rfl

@[simp] theorem readReg_withMem (s : State) (m : Memory) (r : Reg) : { s with mem := m }.readReg r = s.readReg r := by
  cases r <;> rfl

/-- R13: F keeps the high nibble of the byte written. -/
@[simp] theorem readReg_F_writeReg_F (s : State) (v : Byte) : (s.writeReg .F v).readReg .F = v &&& 0xF0 :=
  flagByte_writeFlagByte s v

/-- R13: F has no stored low nibble. -/
theorem readReg_F_and_low (s : State) : s.readReg .F &&& 0x0F = 0 := by
  apply BitVec.eq_of_getLsbD_eq
  intro i hi
  interval_cases i <;> simp [State.readReg, State.flagByte]

/-- `set` of a known register completes with the register written (R68). -/
theorem exec_set_regIndex (r : Reg) (v : Byte) (s : State) :
    exec (.set (regIndex r) v) s = complete 0 (s.writeReg r v) := by
  simp [exec, execSet]

/-! #### Memory -/

/-- A read of memory depends on the memory block alone. -/
theorem readMem_eq_of_mem_eq {s t : State} (h : t.mem = s.mem) (a : Word16) : t.readMem a = s.readMem a := by
  simp only [State.readMem, h]

/-- R34: a write of a cell leaves every other address as it was. -/
theorem readMem_update_other {a a' : Word16} (hne : a' ≠ a) (v : Byte) (s : State) :
    { s with mem := s.mem.update a.toNat v }.readMem a' = s.readMem a' := by
  have hne' : a'.toNat ≠ a.toNat := fun h => hne (BitVec.eq_of_toNat_eq h)
  simp only [State.readMem, Memory.read, lookup_update_other s.mem hne' v]

/-- R34: a cell written reads as the byte written. -/
theorem readMem_update_same {s : State} (hs : s.Inv) {a : Word16} (ha : a.toNat < Config.memCells) (v : Byte) :
    { s with mem := s.mem.update a.toNat v }.readMem a = .ok v := by
  simp only [State.readMem, Memory.read, Nat.not_le.mpr ha, if_false, lookup_update_same hs]

/-! #### What a command writes -/

/-- `Writes i s u`: `u` is `s` with everything that the command `i` may write on it written, its response apart. A
command that only reads, or that faults, writes nothing. -/
inductive Writes : Instr → State → State → Prop
  | nothing (i : Instr) (s : State) : Writes i s s
  | reg (r : Reg) (v : Byte) (s : State) : Writes (.set (regIndex r) v) s (s.writeReg r v)
  | regPair (hi lo : Reg) (v : Word16) (s : State) :
      Writes (.setPair (regIndex hi) (regIndex lo) v) s ((s.writeReg hi (highByte v)).writeReg lo (lowByte v))
  | flag (g : Flag) (b : Bool) (s : State) :
      Writes (.setFlag (flagIndex g) b) s (s.writeReg .F (flagUpd (s.readReg .F) (flagBit g) b))
  | sumToA (i : Instr) (hw : ∀ r, writesReg i r = (r = .A || r = .F)) (o : Sum 8) (s : State) :
      Writes i s ((s.writeSumFlags o).writeReg .A o.res)
  | sumToHl (i : Instr) (hw : ∀ r, writesReg i r = (r = .H || r = .L || r = .F)) (o : Sum 16) (s : State) :
      Writes i s ((s.writeSumFlags o).writeHl o.res)
  | sumToSp (e : Byte) (o : Sum 16) (s : State) : Writes (.addSpE8 e) s { s.writeSumFlags o with sp := o.res }
  | sp (v : Word16) (s : State) : Writes (.spSet v) s { s with sp := v }
  | cell (a : Word16) (v : Byte) (s : State) : Writes (.memSet a v) s { s with mem := s.mem.update a.toNat v }

/-- The command ends in a state that carries its writes and one more response. -/
def WritesThenAnswers (i : Instr) (s : State) (out : Result) : Prop :=
  ∃ (u : State) (rsp : Response), Writes i s u ∧ out = .next (u.answer rsp)

theorem WritesThenAnswers.complete {i : Instr} {s u : State} (h : Writes i s u) (v : Word16) :
    WritesThenAnswers i s (complete v u) := ⟨u, _, h, rfl⟩

/-- A check that fails writes nothing, so only the way on from the checked operand matters. -/
theorem WritesThenAnswers.attempt {i : Instr} {s : State} {α : Type} {x : Except Raised α} {k : α → Result}
    (hk : ∀ v, x = .ok v → WritesThenAnswers i s (k v)) : WritesThenAnswers i s (attempt x s k) := by
  cases x with
  | ok v => exact hk v rfl
  | error r => exact ⟨s, _, .nothing i s, rfl⟩

/-- A command that answers from its operand and the state writes nothing. -/
theorem WritesThenAnswers.read (i : Instr) (s : State) {α : Type} (x : Except Raised α) (f : α → Word16) :
    WritesThenAnswers i s (Machine.attempt x s fun v => Machine.complete (f v) s) :=
  .attempt fun v _ => .complete (.nothing i s) (f v)

/-- Every command writes, and then answers. -/
theorem exec_writesThenAnswers (i : Instr) (s : State) : WritesThenAnswers i s (exec i s) := by
  cases i with
  | get n => exact .read _ s (regNamed n) _
  | getPair hi lo => exact .read _ s (regsNamed hi lo) _
  | flagShift f => exact .read _ s (flagNamed f) _
  | getFlag f => exact .read _ s (flagNamed f) _
  | operandRegister code => exact .read _ s (operandName code) _
  | memGet a => exact .read _ s (s.readMem a) _
  | getFlags => exact .complete (.nothing _ s) _
  | spGet => exact .complete (.nothing _ s) _
  | set n v =>
    refine .attempt fun r hr => ?_
    rw [eq_regIndex_of_regNamed hr]
    exact .complete (.reg r v s) 0
  | setPair hi lo v =>
    refine .attempt fun p hp => ?_
    obtain ⟨rfl, rfl⟩ := eq_regIndex_of_regsNamed hp
    exact .complete (.regPair p.1 p.2 v s) 0
  | setFlag f b =>
    refine .attempt fun g hg => ?_
    rw [eq_flagIndex_of_flagNamed hg]
    exact .complete (.flag g b s) 0
  | add code => exact .attempt fun b _ => .complete (.sumToA _ (fun _ => rfl) _ s) 0
  | addc code => exact .attempt fun b _ => .complete (.sumToA _ (fun _ => rfl) _ s) 0
  | addcHl => exact .attempt fun b _ => .complete (.sumToA _ (fun _ => rfl) _ s) 0
  | addN8 v => exact .complete (.sumToA _ (fun _ => rfl) _ s) 0
  | addHlR16 v => exact .complete (.sumToHl _ (fun _ => rfl) _ s) 0
  | addHlSp => exact .complete (.sumToHl _ (fun _ => rfl) _ s) 0
  | addSpE8 e => exact .complete (.sumToSp e _ s) 0
  | spSet v => exact .complete (.sp v s) 0
  | memSet a v =>
    refine .attempt fun u hu => ?_
    obtain ⟨-, hok⟩ | ⟨-, herr⟩ := writeMem_cases a v s
    · rw [hok] at hu; cases hu; exact .complete (.cell a v s) 0
    · rw [herr] at hu; cases hu

/-- Everything a command can do to the state: its writes, and one response. -/
theorem exec_cases {i : Instr} {s t : State} (h : exec i s = .next t) :
    ∃ (u : State) (rsp : Response), Writes i s u ∧ t = u.answer rsp := by
  obtain ⟨u, rsp, hu, he⟩ := exec_writesThenAnswers i s
  rw [h] at he
  cases he
  exact ⟨u, rsp, hu, rfl⟩

end Sys2Proof.Machine
end

section
/-! ### What no command writes (10_state.md R13, R14, R22, R24) -/

namespace Sys2Proof.Machine

open Sys2Proof.Statements

/-! #### The w marks of the access table -/

/-- A register the access table does not mark keeps its value. -/
theorem Writes.readReg_of_unmarked {i : Instr} {s u : State} (h : Writes i s u) {r : Reg} (hr : writesReg i r = false) :
    u.readReg r = s.readReg r := by
  cases h with
  | nothing => rfl
  | reg r' v =>
    have hne : r ≠ r' := by rintro rfl; simp [writesReg] at hr
    exact readReg_writeReg_other hne s v
  | regPair hi lo v =>
    have hne : r ≠ hi ∧ r ≠ lo := by constructor <;> rintro rfl <;> simp [writesReg] at hr
    rw [readReg_writeReg_other hne.2, readReg_writeReg_other hne.1]
  | flag g b =>
    have hne : r ≠ .F := by simpa [writesReg] using hr
    exact readReg_writeReg_other hne s _
  | sumToA _ hw o =>
    obtain ⟨hA, hF⟩ : r ≠ .A ∧ r ≠ .F := by simpa [hw] using hr
    rw [readReg_writeReg_other hA, writeSumFlags_eq_writeReg, readReg_writeReg_other hF]
  | sumToHl _ hw o =>
    obtain ⟨hH, hL, hF⟩ : r ≠ .H ∧ r ≠ .L ∧ r ≠ .F := by simpa [hw, and_assoc] using hr
    rw [writeHl_eq_writeReg, readReg_writeReg_other hL, readReg_writeReg_other hH, writeSumFlags_eq_writeReg,
      readReg_writeReg_other hF]
  | sumToSp e o =>
    have hF : r ≠ .F := by simpa [writesReg] using hr
    rw [readReg_withSp, writeSumFlags_eq_writeReg, readReg_writeReg_other hF]
  | sp v => exact readReg_withSp s v r
  | cell a v => exact readReg_withMem s _ r

/-- SP is written by `add_SP_e8` and `sp_set` alone. -/
theorem Writes.sp_of_unmarked {i : Instr} {s u : State} (h : Writes i s u) (hsp : ¬writesSp i) : u.sp = s.sp := by
  cases h with
  | sumToSp e o => exact absurd (.inl ⟨e, rfl⟩) hsp
  | sp v => exact absurd (.inr ⟨v, rfl⟩) hsp
  | _ => simp

/-- A cell is written by the `mem_set` that names it alone. -/
theorem Writes.readMem_of_unmarked {i : Instr} {s u : State} (h : Writes i s u) {a : Word16} (ha : ¬writesMem i a) :
    u.readMem a = s.readMem a := by
  cases h with
  | cell a' v =>
    have hne : a ≠ a' := by rintro rfl; exact ha ⟨v, rfl⟩
    exact readMem_update_other hne v s
  | _ => exact readMem_eq_of_mem_eq (by simp) a

/-- No command touches the pending events. -/
theorem Writes.cmdIn_eq {i : Instr} {s u : State} (h : Writes i s u) : u.cmdIn = s.cmdIn := by
  cases h <;> simp

/-- Settles O47, item by item of the access table. -/
theorem onlyMarkedItemsAreWritten : Obligations.OnlyMarkedItemsAreWritten := by
  intro i s t h
  obtain ⟨u, rsp, hu, rfl⟩ := exec_cases h
  refine ⟨fun r hr => ?_, fun hsp => hu.sp_of_unmarked hsp, fun a ha => ?_, hu.cmdIn_eq⟩
  · rw [answer_readReg, hu.readReg_of_unmarked hr]
  · rw [answer_readMem, hu.readMem_of_unmarked ha]

/-! #### The subtract flag -/

/-- R75: bit 6 of an encoded flag byte is S. -/
theorem flagEnc_getLsbD_S (z s hc c : Bool) : (flagEnc z s hc c).getLsbD 6 = s := by
  cases z <;> cases s <;> cases hc <;> cases c <;> rfl

/-- R91: the flags of a sum have S clear. -/
theorem sumFlags_getLsbD_S {w : Nat} (o : Sum w) : (sumFlags o).getLsbD 6 = false := flagEnc_getLsbD_S _ _ _ _

/-- R76: the updated bit is the new one, every other bit the old one. -/
theorem flagUpd_getLsbD (old : Byte) (sh : Nat) (b : Bool) {i : Nat} (hi : i < 8) :
    (flagUpd old sh b).getLsbD i = if i = sh then b else old.getLsbD i := by
  have hbit : ((1 : Byte) <<< sh).getLsbD i = decide (i = sh) := by
    change (BitVec.twoPow 8 sh).getLsbD i = _
    rw [BitVec.getLsbD_twoPow, Bool.eq_iff_iff]
    simp only [Bool.and_eq_true, decide_eq_true_eq]
    omega
  cases b with
  | true =>
    change (old ||| (1 : Byte) <<< sh).getLsbD i = _
    rw [BitVec.getLsbD_or, hbit]
    by_cases h : i = sh <;> simp [h]
  | false =>
    change (old &&& ~~~((1 : Byte) <<< sh)).getLsbD i = _
    rw [BitVec.getLsbD_and, BitVec.getLsbD_not, hbit]
    by_cases h : i = sh <;> simp [h, hi]

/-- After an addition F reads as the flags of its sum. -/
theorem readReg_F_writeSumFlags {w : Nat} (o : Sum w) (s : State) : (s.writeSumFlags o).readReg .F = sumFlags o :=
  flagByte_writeSumFlags o s

/-- A command whose writes turn S from 0 to 1 is one that R14 lists. -/
theorem Writes.sets_S {i : Instr} {s u : State} (h : Writes i s u) (hs : (s.readReg .F).getLsbD 6 = false)
    (hu : (u.readReg .F).getLsbD 6 = true) :
    i = .setFlag (flagIndex .S) true ∨ (∃ v, i = .set (regIndex .F) v) ∨
      ∃ hi lo v, i = .setPair hi lo v ∧ (hi = regIndex .F ∨ lo = regIndex .F) := by
  have hF : writesReg i .F = true := by
    by_contra hno
    rw [h.readReg_of_unmarked (by simpa using hno), hs] at hu
    cases hu
  cases h with
  | nothing => rw [hs] at hu; cases hu
  | reg r v =>
    obtain rfl : r = .F := by simpa [writesReg] using hF
    exact .inr (.inl ⟨v, rfl⟩)
  | regPair hi lo v => exact .inr (.inr ⟨_, _, v, rfl, by simpa [writesReg] using hF⟩)
  | flag g b =>
    have hS : (flagUpd (s.readReg .F) (flagBit g) b).getLsbD 6 = true := by simpa using hu
    rw [flagUpd_getLsbD _ _ _ (by omega), hs] at hS
    obtain ⟨hg, rfl⟩ : 6 = flagBit g ∧ b = true := by simpa using hS
    cases g with
    | S => exact .inl rfl
    | Z | HC | C => cases hg
  | sumToA _ hw o =>
    rw [readReg_writeReg_other (by decide), readReg_F_writeSumFlags, sumFlags_getLsbD_S] at hu
    cases hu
  | sumToHl _ hw o =>
    rw [writeHl_eq_writeReg, readReg_writeReg_other (by decide), readReg_writeReg_other (by decide),
      readReg_F_writeSumFlags, sumFlags_getLsbD_S] at hu
    cases hu
  | sumToSp e o =>
    rw [readReg_withSp, readReg_F_writeSumFlags, sumFlags_getLsbD_S] at hu
    cases hu
  | sp v => cases hF
  | cell a v => cases hF

/-- Settles O30: F must be marked as written, and of the commands that mark it the additions leave S clear. -/
theorem subtractFlagIsSetOnlyDirectly : Obligations.SubtractFlagIsSetOnlyDirectly := by
  intro i s t h hs ht
  obtain ⟨u, rsp, hu, rfl⟩ := exec_cases h
  rw [answer_readReg] at ht
  exact hu.sets_S hs ht

/-! #### F and reset -/

/-- Settles O24: F has four stored bits, and `set(F, v)` writes those. -/
theorem flagRegisterLowNibbleIsZero : Obligations.FlagRegisterLowNibbleIsZero := by
  refine ⟨readReg_F_and_low, fun v s t h => ?_⟩
  rw [exec_set_regIndex, complete] at h
  cases h
  rw [answer_readReg, readReg_F_writeReg_F]

/-- R24, R32: a cell no one has written reads as zero. -/
theorem readMem_reset {a : Word16} (ha : a.toNat < 65535) : State.reset.readMem a = .ok 0 := by
  obtain ⟨-, hok⟩ | ⟨hout, -⟩ := readMem_cases a .reset
  · exact hok
  · exact absurd ha (Nat.not_lt.mpr hout)

/-- Settles O54, register by register. -/
theorem resetStateIsZero : Obligations.ResetStateIsZero :=
  ⟨fun r => by cases r <;> rfl, rfl, fun _ => readMem_reset⟩

end Sys2Proof.Machine
end

section
/-! ### What a command reads (10_state.md R22, its r marks) -/

namespace Sys2Proof.Machine

open Sys2Proof.Statements

/-! #### Two states that agree -/

/-- The two states agree on every register the access table marks as read by the command. -/
def SameRegsRead (i : Instr) (s s' : State) : Prop := ∀ r, readsReg i r = true → s.readReg r = s'.readReg r

/-- The two states agree on everything the access table marks as written by the command. -/
def SameWritten (i : Instr) (u u' : State) : Prop :=
  (∀ r, writesReg i r = true → u.readReg r = u'.readReg r) ∧ (writesSp i → u.sp = u'.sp) ∧
    ∀ a, writesMem i a → u.readMem a = u'.readMem a

/-- The two outcomes of a command on `s` and on `s'` show no difference: each adds the same response, and where it is no
fault the two next states agree on what the command writes. -/
def Agrees (i : Instr) (s s' : State) (out out' : Result) : Prop :=
  ∃ (t t' : State) (rsp : Response), out = .next t ∧ out' = .next t' ∧
    t.respOut = s.respOut ++ [rsp] ∧ t'.respOut = s'.respOut ++ [rsp] ∧ (rsp.fault = none → SameWritten i t t')

/-- The access table marks neither SP nor a cell as written by the command. -/
def WritesOnlyRegs (i : Instr) : Prop := ¬writesSp i ∧ ∀ a, ¬writesMem i a

section Agreement
variable {i : Instr} {s s' u u' : State}

/-- The three commands that write SP or a cell. -/
theorem WritesOnlyRegs.of_ne (hadd : ∀ e, i ≠ .addSpE8 e) (hsp : ∀ v, i ≠ .spSet v) (hmem : ∀ a v, i ≠ .memSet a v) :
    WritesOnlyRegs i := by
  refine ⟨?_, fun a ⟨v, hi⟩ => hmem a v hi⟩
  rintro (⟨e, hi⟩ | ⟨v, hi⟩)
  · exact hadd e hi
  · exact hsp v hi

theorem WritesOnlyRegs.sameWritten (h : WritesOnlyRegs i)
    (hreg : ∀ r, writesReg i r = true → u.readReg r = u'.readReg r) : SameWritten i u u' := by
  obtain ⟨hsp, hmem⟩ := h
  exact ⟨hreg, fun hw => absurd hw hsp, fun a ha => absurd ha (hmem a)⟩

/-- A register written with one byte in two states reads the same in both, and any other one does if it did before. -/
theorem readReg_writeReg_congr {m n : Reg} (v : Byte) (h : m ≠ n → u.readReg m = u'.readReg m) :
    (u.writeReg n v).readReg m = (u'.writeReg n v).readReg m := by
  by_cases hmn : m = n
  · subst hmn; cases m <;> rfl
  · rw [readReg_writeReg_other hmn, readReg_writeReg_other hmn, h hmn]

/-! #### The ends of an operation -/

theorem Agrees.takeFault (i : Instr) (s s' : State) (r : Raised) :
    Agrees i s s' (takeFault r s) (takeFault r s') :=
  ⟨_, _, ⟨some r.fault, r.value⟩, rfl, rfl, rfl, rfl, nofun⟩

theorem Agrees.complete {v v' : Word16} (hv : v = v') (hu : u.respOut = s.respOut) (hu' : u'.respOut = s'.respOut)
    (hw : SameWritten i u u') : Agrees i s s' (complete v u) (complete v' u') := by
  subst hv
  obtain ⟨hreg, hsp, hmem⟩ := hw
  refine ⟨_, _, ⟨none, v⟩, rfl, rfl, by simp [hu], by simp [hu'], fun _ => ⟨fun r hr => ?_, hsp, hmem⟩⟩
  simpa using hreg r hr

/-- A check that ends the same way in both states leaves only the way on from the checked operand to compare. -/
theorem Agrees.attempt {α : Type} {x x' : Except Raised α} {k k' : α → Result} (hx : x = x')
    (hk : ∀ v, x = .ok v → Agrees i s s' (k v) (k' v)) : Agrees i s s' (attempt x s k) (attempt x' s' k') := by
  subst hx
  cases x with
  | ok v => exact hk v rfl
  | error r => exact .takeFault i s s' r

/-- A command that writes nothing agrees where its answers do. -/
theorem Agrees.answer {v v' : Word16} (hv : v = v') (hw : WritesOnlyRegs i) (hreg : ∀ r, writesReg i r = false) :
    Agrees i s s' (Machine.complete v s) (Machine.complete v' s') :=
  .complete hv rfl rfl (hw.sameWritten fun r hr => by simp [hreg] at hr)

theorem Agrees.finishA {o o' : Sum 8} (ho : o = o') (hw : WritesOnlyRegs i)
    (hreg : ∀ r, writesReg i r = (r = .A || r = .F)) : Agrees i s s' (finishA o s) (finishA o' s') := by
  subst ho
  refine .complete rfl rfl rfl (hw.sameWritten fun r hr => ?_)
  refine readReg_writeReg_congr (n := .A) o.res fun hA => ?_
  refine readReg_writeReg_congr (n := .F) (sumFlags o) fun hF => ?_
  simp [hreg, hA, hF] at hr

theorem Agrees.finishHl {o o' : Sum 16} (ho : o = o') (hw : WritesOnlyRegs i)
    (hreg : ∀ r, writesReg i r = (r = .H || r = .L || r = .F)) : Agrees i s s' (finishHl o s) (finishHl o' s') := by
  subst ho
  refine .complete rfl rfl rfl (hw.sameWritten fun r hr => ?_)
  simp only [writeHl_eq_writeReg]
  refine readReg_writeReg_congr (n := .L) _ fun hL => ?_
  refine readReg_writeReg_congr (n := .H) _ fun hH => ?_
  refine readReg_writeReg_congr (n := .F) (sumFlags o) fun hF => ?_
  simp [hreg, hL, hH, hF] at hr

theorem Agrees.finishSp {o o' : Sum 16} (ho : o = o') (hreg : ∀ r, writesReg i r = decide (r = .F))
    (hmem : ∀ a, ¬writesMem i a) : Agrees i s s' (finishSp o s) (finishSp o' s') := by
  subst ho
  refine .complete rfl rfl rfl ⟨fun r hr => ?_, fun _ => rfl, fun a ha => absurd ha (hmem a)⟩
  simp only [readReg_withSp]
  refine readReg_writeReg_congr (n := .F) (sumFlags o) fun hF => ?_
  simp [hreg, hF] at hr

/-- A cell written in two canonical memories reads the same in both; the address is checked alike. -/
theorem agrees_memSet (hs : s.Inv) (hs' : s'.Inv) (a : Word16) (v : Byte) :
    Agrees (.memSet a v) s s' (exec (.memSet a v) s) (exec (.memSet a v) s') := by
  change Agrees _ s s' (attempt (s.writeMem a v) s _) (attempt (s'.writeMem a v) s' _)
  obtain ⟨ha, hok⟩ | ⟨ha, herr⟩ := writeMem_cases a v s
  · obtain ⟨-, hok'⟩ | ⟨ha', -⟩ := writeMem_cases a v s'
    · rw [hok, hok']
      refine .complete rfl rfl rfl ⟨nofun, nofun, ?_⟩
      rintro _ ⟨_, hi⟩
      cases hi
      rw [readMem_update_same hs ha, readMem_update_same hs' ha]
    · exact absurd ha (Nat.not_lt.mpr ha')
  · obtain ⟨ha', -⟩ | ⟨-, herr'⟩ := writeMem_cases a v s'
    · exact absurd ha' (Nat.not_lt.mpr ha)
    · rw [herr, herr']
      exact .takeFault _ s s' _

/-! #### The operands -/

/-- R87: a code resolves alike where the register it selects does. -/
theorem resolve8_congr {code : Byte} (h : ∀ r, codeNames code r = true → s.readReg r = s'.readReg r) :
    resolve8 code s = resolve8 code s' := by
  unfold resolve8
  cases hd : r8dec code with
  | register r => exact congrArg Except.ok (h r (by simp [codeNames, hd]))
  | memoryIndirectHl => rfl
  | invalid => rfl

theorem hl_congr (hH : s.readReg .H = s'.readReg .H) (hL : s.readReg .L = s'.readReg .L) : s.hl = s'.hl :=
  congrArg₂ pair hH hL

end Agreement

/-! #### Every command -/

/-- Settles O48, command by command: its checks and its answer are the same on both states, and so are the bytes it
writes. -/
theorem onlyMarkedItemsAreRead : Obligations.OnlyMarkedItemsAreRead := by
  intro i s s' hs hs' (hregs : SameRegsRead i s s') hcarry hsp hmem
  change Agrees i s s' (exec i s) (exec i s')
  cases i with
  | get n =>
    refine .attempt rfl fun r hr => .answer ?_ (.of_ne nofun nofun nofun) fun _ => rfl
    rw [hregs r (by simp [readsReg, eq_regIndex_of_regNamed hr])]
  | getPair hi lo =>
    refine .attempt rfl fun p hp => .answer ?_ (.of_ne nofun nofun nofun) fun _ => rfl
    obtain ⟨hhi, hlo⟩ := eq_regIndex_of_regsNamed hp
    rw [hregs p.1 (by simp [readsReg, hhi]), hregs p.2 (by simp [readsReg, hlo])]
  | flagShift f => exact .attempt rfl fun g _ => .answer rfl (.of_ne nofun nofun nofun) fun _ => rfl
  | getFlags =>
    have hF : s.flagByte = s'.flagByte := hregs .F rfl
    exact .answer (by rw [hF]) (.of_ne nofun nofun nofun) fun _ => rfl
  | getFlag f =>
    have hF : s.flagByte = s'.flagByte := hregs .F rfl
    exact .attempt rfl fun g _ => .answer (by rw [hF]) (.of_ne nofun nofun nofun) fun _ => rfl
  | operandRegister code => exact .attempt rfl fun v _ => .answer rfl (.of_ne nofun nofun nofun) fun _ => rfl
  | spGet => exact .answer (hsp (.inr (.inr rfl))) (.of_ne nofun nofun nofun) fun _ => rfl
  | memGet a =>
    exact .attempt (hmem a (.inr rfl)) fun v _ => .answer rfl (.of_ne nofun nofun nofun) fun _ => rfl
  | set n v =>
    refine .attempt rfl fun r hr => .complete rfl (by simp) (by simp) ?_
    rw [eq_regIndex_of_regNamed hr]
    refine WritesOnlyRegs.sameWritten (.of_ne nofun nofun nofun) fun m hm => ?_
    refine readReg_writeReg_congr v fun hne => ?_
    simp [writesReg, hne.symm] at hm
  | setPair hi lo v =>
    refine .attempt rfl fun p hp => .complete rfl (by simp) (by simp) ?_
    obtain ⟨rfl, rfl⟩ := eq_regIndex_of_regsNamed hp
    refine WritesOnlyRegs.sameWritten (.of_ne nofun nofun nofun) fun m hm => ?_
    refine readReg_writeReg_congr _ fun hlo => readReg_writeReg_congr _ fun hhi => ?_
    simp [writesReg, hlo.symm, hhi.symm] at hm
  | setFlag f b =>
    have hF : s.flagByte = s'.flagByte := hregs .F rfl
    refine .attempt rfl fun g _ => .complete rfl rfl rfl ?_
    refine WritesOnlyRegs.sameWritten (.of_ne nofun nofun nofun) fun m hm => ?_
    rw [hF]
    refine readReg_writeReg_congr (n := .F) _ fun hne => ?_
    simp [writesReg, hne] at hm
  | add code =>
    have hA : s.a = s'.a := hregs .A rfl
    refine .attempt (resolve8_congr fun r hr => hregs r (by simp [readsReg, hr])) fun b _ => ?_
    exact .finishA (by rw [hA]) (.of_ne nofun nofun nofun) fun _ => rfl
  | addc code =>
    have hA : s.a = s'.a := hregs .A rfl
    have hC : s.flagC = s'.flagC := hcarry (.inl ⟨code, rfl⟩)
    refine .attempt (resolve8_congr fun r hr => hregs r (by simp [readsReg, hr])) fun b _ => ?_
    exact .finishA (by rw [hA, hC]) (.of_ne nofun nofun nofun) fun _ => rfl
  | addcHl =>
    have hA : s.a = s'.a := hregs .A rfl
    have hC : s.flagC = s'.flagC := hcarry (.inr rfl)
    have hM : s.readMem s.hl = s'.readMem s'.hl := by
      rw [← hl_congr (hregs .H rfl) (hregs .L rfl)]
      exact hmem s.hl (.inl ⟨rfl, rfl⟩)
    exact .attempt hM fun b _ => .finishA (by rw [hA, hC]) (.of_ne nofun nofun nofun) fun _ => rfl
  | addN8 v =>
    have hA : s.a = s'.a := hregs .A rfl
    exact .finishA (by rw [hA]) (.of_ne nofun nofun nofun) fun _ => rfl
  | addHlR16 v =>
    have hHl : s.hl = s'.hl := hl_congr (hregs .H rfl) (hregs .L rfl)
    exact .finishHl (by rw [hHl]) (.of_ne nofun nofun nofun) fun _ => rfl
  | addHlSp =>
    have hHl : s.hl = s'.hl := hl_congr (hregs .H rfl) (hregs .L rfl)
    exact .finishHl (by rw [hHl, hsp (.inl rfl)]) (.of_ne nofun nofun nofun) fun _ => rfl
  | addSpE8 e =>
    exact .finishSp (by rw [hsp (.inr (.inl ⟨e, rfl⟩))]) (fun _ => rfl) fun _ => nofun
  | spSet v => exact .complete rfl rfl rfl ⟨nofun, fun _ => rfl, fun _ => nofun⟩
  | memSet a v => exact agrees_memSet hs hs' a v

end Sys2Proof.Machine
end

section
/-! ### The bounds of memory (20_memory.md R33) -/

namespace Sys2Proof.Machine

/-- R33: an address with a cell reads that cell. -/
theorem readMem_of_lt {a : Word16} (ha : a.toNat < Config.memCells) (s : State) :
    s.readMem a = .ok (s.mem.lookup a.toNat) := by
  obtain ⟨-, hok⟩ | ⟨hout, -⟩ := readMem_cases a s
  · exact hok
  · exact absurd ha (Nat.not_lt.mpr hout)

/-- R33, R124: an address past the last cell is reported as `MemoryBounds`. -/
theorem readMem_of_le {a : Word16} (ha : Config.memCells ≤ a.toNat) (s : State) :
    s.readMem a = .error ⟨.memoryBounds, a⟩ := by
  obtain ⟨hin, -⟩ | ⟨-, herr⟩ := readMem_cases a s
  · exact absurd hin (Nat.not_lt.mpr ha)
  · exact herr

/-- C1: the block ends one cell short of the address range, so 0xFFFF has no cell. -/
theorem memCells_le_0xFFFF : Config.memCells ≤ (0xFFFF : Word16).toNat := by decide

/-- Settles O17: the block has 65535 cells, so the first clause is the read in bounds and 0xFFFF lies outside. -/
theorem memoryReadIsBounded : Obligations.MemoryReadIsBounded :=
  ⟨fun _ s ha => readMem_of_lt ha s, readMem_of_le memCells_le_0xFFFF⟩

end Sys2Proof.Machine
end

section
/-! ### The command encoding (30_encoding.md R46 to R54, R57) -/

namespace Sys2Proof.Machine

open Sys2Proof.Laws

/-! #### The fields of a word built from its fields -/

/-- R46: the four fields stand side by side. -/
theorem mkWord_eq_append (op : Byte) (ra rb : Nibble) (d : Word16) :
    mkWord op ra rb d = op ++ ra ++ rb ++ d := by
  apply BitVec.eq_of_getLsbD_eq
  intro i hi
  rw [BitVec.getLsbD_append, BitVec.getLsbD_append, BitVec.getLsbD_append]
  interval_cases i <;> simp [mkWord]

@[simp] theorem raField_mkWord (op : Byte) (ra rb : Nibble) (d : Word16) : raField (mkWord op ra rb d) = ra := by
  rw [mkWord_eq_append, raField, BitVec.extractLsb'_append_eq_of_le (by decide),
    BitVec.extractLsb'_append_eq_of_le (by decide)]
  exact BitVec.extractLsb'_append_eq_right

@[simp] theorem rbField_mkWord (op : Byte) (ra rb : Nibble) (d : Word16) : rbField (mkWord op ra rb d) = rb := by
  rw [mkWord_eq_append, rbField, BitVec.extractLsb'_append_eq_of_le (by decide)]
  exact BitVec.extractLsb'_append_eq_right

@[simp] theorem dField_mkWord (op : Byte) (ra rb : Nibble) (d : Word16) : dField (mkWord op ra rb d) = d := by
  rw [mkWord_eq_append, dField, BitVec.extractLsb'_append_eq_right]

/-- A word is built from its own four fields. -/
theorem mkWord_fields (w : CmdWord) : mkWord (opField w) (raField w) (rbField w) (dField w) = w := by
  rw [mkWord_eq_append, opField, raField, rbField, dField,
    BitVec.extractLsb'_append_extractLsb'_eq_extractLsb' (start₁ := 20) (by decide),
    BitVec.extractLsb'_append_extractLsb'_eq_extractLsb' (start₁ := 16) (by decide),
    BitVec.extractLsb'_append_extractLsb'_eq_extractLsb' (start₁ := 0) (by decide)]
  exact BitVec.extractLsb'_eq_self

/-- Masking a word masks each of its fields. -/
theorem and_mkWord (w : CmdWord) (op : Byte) (ra rb : Nibble) (d : Word16) :
    w &&& mkWord op ra rb d = mkWord (opField w &&& op) (raField w &&& ra) (rbField w &&& rb) (dField w &&& d) := by
  conv_lhs => rw [← mkWord_fields w]
  simp only [mkWord_eq_append]
  rw [BitVec.and_append, BitVec.and_append, BitVec.and_append]

/-! #### Masks that keep a whole field -/

theorem byte_and_full (x : Byte) : x &&& 0xFF = x := BitVec.and_allOnes

@[simp] theorem nibble_and_full (x : Nibble) : x &&& 0xF#4 = x := BitVec.and_allOnes

@[simp] theorem word16_and_full (x : Word16) : x &&& 0xFFFF#16 = x := BitVec.and_allOnes

/-! #### The operands narrower than their fields (R51) -/

theorem d8Field_eq_setWidth (w : CmdWord) : d8Field w = (dField w).setWidth 8 :=
  (BitVec.setWidth_extractLsb'_of_le (by decide)).symm

theorem d8Field_mkWord_setWidth (op : Byte) (ra rb : Nibble) (v : Byte) :
    d8Field (mkWord op ra rb (v.setWidth 16)) = v := by
  simp [d8Field_eq_setWidth]

/-- Putting an operand byte back into `d` clears the upper half. -/
theorem setWidth_d8Field (w : CmdWord) : (d8Field w).setWidth 16 = dField w &&& 0x00FF := by
  apply BitVec.eq_of_getLsbD_eq
  intro i hi
  interval_cases i <;> simp [d8Field, dField]

theorem d0Field_mkWord_ofBool (op : Byte) (ra rb : Nibble) (b : Bool) :
    d0Field (mkWord op ra rb ((BitVec.ofBool b).setWidth 16)) = b := by
  simp [d0Field, mkWord]

/-- Putting an operand bit back into `d` clears the other fifteen bits. -/
theorem setWidth_ofBool_d0Field (w : CmdWord) : (BitVec.ofBool (d0Field w)).setWidth 16 = dField w &&& 0x0001 := by
  apply BitVec.eq_of_getLsbD_eq
  intro i hi
  interval_cases i <;> simp [d0Field, dField]

/-- The data byte of `mem_set` is the two register fields side by side. -/
theorem dataField_eq_append (w : CmdWord) : dataField w = raField w ++ rbField w := by
  rw [raField, rbField, BitVec.extractLsb'_append_extractLsb'_eq_extractLsb' (start₂ := 20) (start₁ := 16) (by decide)]
  rfl

theorem highNibble_dataField (w : CmdWord) : (dataField w).extractLsb' 4 4 = raField w := by
  rw [dataField_eq_append]
  exact BitVec.extractLsb'_append_eq_left

theorem lowNibble_dataField (w : CmdWord) : (dataField w).extractLsb' 0 4 = rbField w := by
  rw [dataField_eq_append]
  exact BitVec.extractLsb'_append_eq_right

theorem dataField_mkWord_nibbles (op : Byte) (v : Byte) (d : Word16) :
    dataField (mkWord op (v.extractLsb' 4 4) (v.extractLsb' 0 4) d) = v := by
  rw [dataField_eq_append, raField_mkWord, rbField_mkWord,
    BitVec.extractLsb'_append_extractLsb'_eq_extractLsb' (start₂ := 4) (start₁ := 0) (by decide)]
  exact BitVec.extractLsb'_eq_self

/-! #### Decoding an encoding -/

/-- R57, R46, R52: every operand sits in the field its format reads it from, so the decoder finds it again. The cases
are grouped by the operand that is narrower than its field: none, `d[7:0]`, `d[0]`, or `{ra, rb}` (R51). -/
theorem decode_encode (i : Instr) : decode (encode i) = some i := by
  cases i with
  | get | getPair | setPair | flagShift | getFlags | getFlag | addcHl | addHlR16 | addHlSp | spGet | spSet | memGet =>
    simp [decode, encode, Instr.opNumber, opField_mkWord]
  | set | operandRegister | add | addc | addN8 | addSpE8 =>
    simp [decode, encode, Instr.opNumber, opField_mkWord, d8Field_mkWord_setWidth]
  | setFlag => simp [decode, encode, Instr.opNumber, opField_mkWord, d0Field_mkWord_ofBool]
  | memSet => simp [decode, encode, Instr.opNumber, opField_mkWord, dataField_mkWord_nibbles]

/-- Settles O1: the round trip holds constructor by constructor. -/
theorem decodeOfEncodeIsIdentity : Obligations.DecodeOfEncodeIsIdentity := decode_encode

/-! #### Encoding a decoding -/

/-- R47: a word that decodes carries the operation number of its command. -/
theorem opField_of_decode {w : CmdWord} {i : Instr} (h : decode w = some i) : opField w = i.opNumber := by
  apply BitVec.eq_of_toNat_eq
  unfold decode at h
  split at h <;> cases h <;> assumption

/-- Clearing the unused bits of a word keeps `op` and masks the other fields as its format does (R52). -/
theorem and_usedBits {w : CmdWord} {op : Byte} (hop : opField w = op) {ra rb : Nibble} {d : Word16}
    (hm : usedBits op = mkWord 0xFF ra rb d) :
    w &&& usedBits (opField w) = mkWord op (raField w &&& ra) (rbField w &&& rb) (dField w &&& d) := by
  rw [hop, hm, and_mkWord, hop, byte_and_full]

/-- R52: the encoder writes the fields the decoder reads, and zero elsewhere (log entry 11). The cases are grouped by
the mask of their format. -/
theorem encode_of_decode {w : CmdWord} {i : Instr} (h : decode w = some i) :
    encode i = w &&& usedBits (opField w) := by
  have hop := opField_of_decode h
  simp only [decode, hop] at h
  cases i with
  | getFlags | addcHl | addHlSp | spGet =>
    rw [and_usedBits hop (ra := 0) (rb := 0) (d := 0) rfl]
    simp [encode]
  | get | flagShift | getFlag =>
    cases h
    rw [and_usedBits hop (ra := 0xF) (rb := 0) (d := 0) rfl]
    simp [encode]
  | getPair =>
    cases h
    rw [and_usedBits hop (ra := 0xF) (rb := 0xF) (d := 0) rfl]
    simp [encode]
  | setPair =>
    cases h
    rw [and_usedBits hop (ra := 0xF) (rb := 0xF) (d := 0xFFFF) rfl]
    simp [encode]
  | set =>
    cases h
    rw [and_usedBits hop (ra := 0xF) (rb := 0) (d := 0x00FF) rfl]
    simp [encode, setWidth_d8Field]
  | setFlag =>
    cases h
    rw [and_usedBits hop (ra := 0xF) (rb := 0) (d := 0x0001) rfl]
    simp [encode, setWidth_ofBool_d0Field]
  | operandRegister | add | addc | addN8 | addSpE8 =>
    cases h
    rw [and_usedBits hop (ra := 0) (rb := 0) (d := 0x00FF) rfl]
    simp [encode, setWidth_d8Field]
  | addHlR16 | spSet | memGet =>
    cases h
    rw [and_usedBits hop (ra := 0) (rb := 0) (d := 0xFFFF) rfl]
    simp [encode]
  | memSet =>
    cases h
    rw [and_usedBits hop (ra := 0xF) (rb := 0xF) (d := 0xFFFF) rfl]
    simp [encode, highNibble_dataField, lowNibble_dataField]

/-- Settles O2: what a decoded word loses is what its format does not list. -/
theorem encodeOfDecodeClearsUnusedBits : Obligations.EncodeOfDecodeClearsUnusedBits :=
  fun _ _ h => encode_of_decode h

/-! #### The bits outside a format -/

/-- R52: every format reads all of `op`, and so does a reserved word. -/
theorem opField_usedBits (op : Byte) : opField (usedBits op) = 0xFF := by
  unfold usedBits
  split <;> rfl

theorem opField_and_usedBits (w : CmdWord) (op : Byte) : opField (w &&& usedBits op) = opField w := by
  have hand : opField (w &&& usedBits op) = opField w &&& opField (usedBits op) := BitVec.extractLsb'_and
  rw [hand, opField_usedBits, byte_and_full]

/-- R54, R57: the decoder accepts the operation numbers below 0x14 and no others. -/
theorem decode_eq_none_iff (w : CmdWord) : decode w = none ↔ 0x14 ≤ (opField w).toNat := by
  unfold decode
  split
  case h_21 =>
    simp only [imp_false, true_iff] at *
    omega
  all_goals simp [*]

/-- R53: clearing the unused bits of a word does not change what it decodes to. -/
theorem decode_and_usedBits (w : CmdWord) : decode (w &&& usedBits (opField w)) = decode w := by
  cases h : decode w with
  | some i => rw [← encode_of_decode h, decode_encode]
  | none => rwa [decode_eq_none_iff, opField_and_usedBits, ← decode_eq_none_iff]

/-- R54, R57: a word taken that does not decode is rejected. -/
theorem step_of_fetch_reserved {s s' : State} {w : CmdWord} (hf : fetch s = .command w s') (hd : decode w = none) :
    step s = rejectWord w s' := by
  simp only [step, hf, hd]

/-- R57: a step sees nothing of the word it takes but its `op` and what it decodes to. -/
theorem step_congr_word {s₁ s₂ s' : State} {w₁ w₂ : CmdWord} (h₁ : fetch s₁ = .command w₁ s')
    (h₂ : fetch s₂ = .command w₂ s') (hd : decode w₁ = decode w₂) (hop : opField w₁ = opField w₂) :
    step s₁ = step s₂ := by
  cases h : decode w₁ with
  | some i => rw [step_of_fetch_command h₁ h, step_of_fetch_command h₂ (hd ▸ h)]
  | none =>
    rw [step_of_fetch_reserved h₁ h, step_of_fetch_reserved h₂ (hd ▸ h)]
    simp only [rejectWord, hop]

/-- Settles O3: with its unused bits cleared a word keeps its `op` and decodes as before. -/
theorem unusedBitsDoNotMatter : Obligations.UnusedBitsDoNotMatter := fun w _ _ =>
  step_congr_word rfl rfl (decode_and_usedBits w).symm (opField_and_usedBits w _).symm

/-! #### The printed words and the index tables -/

/-- Settles O4: eleven fixed words, run through the decoder. -/
theorem exampleWordsDecode : Obligations.ExampleWordsDecode := by
  unfold Obligations.ExampleWordsDecode
  decide

theorem regIndex_lt (r : Reg) : (regIndex r).toNat < 8 := by cases r <;> decide

theorem flagIndex_lt (g : Flag) : (flagIndex g).toNat < 4 := by cases g <;> decide

/-- R48, R121: the indices 8 to 15 name no register. -/
theorem regNamed_of_le {n : NameIx} (hn : 8 ≤ n.toNat) : regNamed n = .error ⟨.unknownRegister, n.setWidth 16⟩ := by
  obtain ⟨r, rfl, -⟩ | ⟨-, herr⟩ := regNamed_cases n
  · exact absurd (regIndex_lt r) (Nat.not_lt.mpr hn)
  · exact herr

/-- R49, R122: the indices 4 to 15 name no flag. -/
theorem flagNamed_of_le {f : FlagIx} (hf : 4 ≤ f.toNat) : flagNamed f = .error ⟨.unknownFlag, f.setWidth 16⟩ := by
  obtain ⟨g, rfl, -⟩ | ⟨-, herr⟩ := flagNamed_cases f
  · exact absurd (flagIndex_lt g) (Nat.not_lt.mpr hf)
  · exact herr

/-- R48: the operand code that selects a register is never its name index. -/
theorem toNat_ne_regIndex_of_r8dec {code : Byte} {r : Reg} (h : r8dec code = .register r) :
    code.toNat ≠ (regIndex r).toNat := by
  unfold r8dec at h
  split at h <;> cases h <;> simp [regIndex, *]

/-- Settles O6, the table row by row and its three laws. -/
theorem nameIndexTable : Obligations.NameIndexTable :=
  ⟨rfl, rfl, rfl, rfl, rfl, rfl, rfl, rfl, regNamed_regIndex, fun _ => regNamed_of_le,
    fun _ _ => toNat_ne_regIndex_of_r8dec⟩

/-- Settles O7, the table row by row and its two laws. -/
theorem flagIndexTable : Obligations.FlagIndexTable :=
  ⟨rfl, rfl, rfl, rfl, rfl, rfl, rfl, rfl, flagNamed_flagIndex, fun _ => flagNamed_of_le⟩

end Sys2Proof.Machine
end

section
/-! ### The register-file commands (40_register_file.md R67 to R70) -/

namespace Sys2Proof.Machine

open Sys2Proof.Statements

/-! #### From how a command ends to the statements' vocabulary -/

/-- R9, R58: a command that ends by completing from `u` answers, and the ports are as before when `u` left them so. -/
theorem completesWith_of_exec_eq {i : Instr} {s u : State} {v : Word16} (h : exec i s = complete v u)
    (hresp : u.respOut = s.respOut) (hcmd : u.cmdIn = s.cmdIn) : CompletesWith i s (u.answer ⟨none, v⟩) v :=
  ⟨h, by rw [answer_respOut, hresp], hcmd⟩

/-- R126, R127: a command whose check fails raises the fault of the check. -/
theorem faultsWith_of_check_error {i : Instr} {s : State} {α : Type} {x : Except Raised α} {next : α → Result}
    {k : CoreFault} {v : Word16} (h : exec i s = attempt x s next) (hx : x = .error ⟨k, v⟩) : FaultsWith i s k v := by
  rw [hx, attempt_error, takeFault_eq] at h
  exact h

/-! #### What the registers read after a write -/

/-- R13, R68: the register written reads as what it keeps of the byte. -/
theorem readReg_writeReg_kept (s : State) (r : Reg) (v : Byte) : (s.writeReg r v).readReg r = kept r v := by
  by_cases hr : r = .F
  · subst hr
    exact readReg_F_writeReg_F s v
  · rw [readReg_writeReg_same hr, kept, if_neg hr]

theorem regsSameBut_writeReg (s : State) (r : Reg) (v : Byte) : RegsSameBut [r] s (s.writeReg r v) :=
  fun _ hr' => readReg_writeReg_other (List.ne_of_not_mem_cons hr') s v

theorem regsSameBut_trans {rs rs' : List Reg} {s t u : State} (h : RegsSameBut rs s t) (h' : RegsSameBut rs' t u) :
    RegsSameBut (rs ++ rs') s u := by
  intro r hr
  rw [List.mem_append, not_or] at hr
  rw [h' r hr.2, h r hr.1]

theorem regsSameBut_answer {rs : List Reg} {s t : State} (h : RegsSameBut rs s t) (rsp : Response) :
    RegsSameBut rs s (t.answer rsp) :=
  fun r hr => (answer_readReg t rsp r).trans (h r hr)

/-! #### The names of a pair, `hi` checked first (R69, R70) -/

@[simp] theorem regsNamed_regIndex (hi lo : Reg) : regsNamed (regIndex hi) (regIndex lo) = .ok (hi, lo) := by
  simp only [regsNamed, regNamed_regIndex]

theorem regsNamed_of_hi_le {hi : NameIx} (h : 8 ≤ hi.toNat) (lo : NameIx) :
    regsNamed hi lo = .error ⟨.unknownRegister, hi.setWidth 16⟩ := by
  simp only [regsNamed, regNamed_of_le h]

theorem regsNamed_of_lo_le (r : Reg) {lo : NameIx} (h : 8 ≤ lo.toNat) :
    regsNamed (regIndex r) lo = .error ⟨.unknownRegister, lo.setWidth 16⟩ := by
  simp only [regsNamed, regNamed_regIndex, regNamed_of_le h]

/-! #### The commands on known names -/

theorem exec_get_regIndex (r : Reg) (s : State) :
    exec (.get (regIndex r)) s = complete ((s.readReg r).setWidth 16) s := by
  simp only [exec, execGet, regNamed_regIndex, attempt_ok]

theorem exec_getPair_regIndex (hi lo : Reg) (s : State) :
    exec (.getPair (regIndex hi) (regIndex lo)) s = complete (pair (s.readReg hi) (s.readReg lo)) s := by
  simp only [exec, execGetPair, regsNamed_regIndex, attempt_ok]

/-- `set_pair` of known registers completes with `hi` written and then `lo` (R70). -/
theorem exec_setPair_regIndex (hi lo : Reg) (v : Word16) (s : State) :
    exec (.setPair (regIndex hi) (regIndex lo) v) s =
      complete 0 ((s.writeReg hi (highByte v)).writeReg lo (lowByte v)) := by
  simp only [exec, execSetPair, regsNamed_regIndex, attempt_ok]

/-- R70: the second write leaves the high byte alone when it goes to another register. -/
theorem readReg_writePair_hi {hi lo : Reg} (hne : hi ≠ lo) (s : State) (v w : Byte) :
    ((s.writeReg hi v).writeReg lo w).readReg hi = kept hi v := by
  rw [readReg_writeReg_other hne, readReg_writeReg_kept]

/-! #### Their rows of the decoder (R47, R52) -/

theorem decodesAs_get : DecodesAs 0x00 (fun w => .get (raField w)) :=
  fun w (hop : opField w = 0x00) => by simp only [decode, hop]; rfl

theorem decodesAs_set : DecodesAs 0x01 (fun w => .set (raField w) (d8Field w)) :=
  fun w (hop : opField w = 0x01) => by simp only [decode, hop]; rfl

theorem decodesAs_getPair : DecodesAs 0x02 (fun w => .getPair (raField w) (rbField w)) :=
  fun w (hop : opField w = 0x02) => by simp only [decode, hop]; rfl

theorem decodesAs_setPair : DecodesAs 0x03 (fun w => .setPair (raField w) (rbField w) (dField w)) :=
  fun w (hop : opField w = 0x03) => by simp only [decode, hop]; rfl

/-! #### The statements -/

/-- Settles O19: a known name is read, and an unknown one fails the check before anything is done. -/
theorem getReturnsTheRegister : Obligations.GetReturnsTheRegister :=
  ⟨decodesAs_get, exec_get_regIndex, fun _ _ hn => faultsWith_of_check_error rfl (regNamed_of_le hn)⟩

/-- Settles O20: on a known name `set` is one register write, which keeps all else. -/
theorem setWritesTheRegister : Obligations.SetWritesTheRegister := by
  refine ⟨decodesAs_set, fun r v s => ?_, fun n v s hn => faultsWith_of_check_error rfl (regNamed_of_le hn)⟩
  refine ⟨_, completesWith_of_exec_eq (exec_set_regIndex r v s) ?_ ?_, ?_,
    regsSameBut_answer (regsSameBut_writeReg s r v) _, ?_, ?_⟩
  · exact writeReg_respOut s r v
  · exact writeReg_cmdIn s r v
  · rw [answer_readReg, readReg_writeReg_kept]
  · exact writeReg_sp s r v
  · exact writeReg_mem s r v

/-- Settles O21: known names are read, and the first unknown one in the order `hi`, `lo` fails the check. -/
theorem getPairReturnsBothRegisters : Obligations.GetPairReturnsBothRegisters :=
  ⟨decodesAs_getPair, exec_getPair_regIndex,
    fun _ m _ hn => faultsWith_of_check_error rfl (regsNamed_of_hi_le hn m),
    fun r _ _ hn => faultsWith_of_check_error rfl (regsNamed_of_lo_le r hn)⟩

/-- Settles O22: on known names `set_pair` is two register writes, `lo` last; the names are checked before both. -/
theorem setPairWritesBothRegisters : Obligations.SetPairWritesBothRegisters := by
  refine ⟨decodesAs_setPair, fun hi lo v s => ?_,
    fun n m v s hn => faultsWith_of_check_error rfl (regsNamed_of_hi_le hn m),
    fun r n v s hn => faultsWith_of_check_error rfl (regsNamed_of_lo_le r hn)⟩
  have hframe := regsSameBut_trans (regsSameBut_writeReg s hi (highByte v)) (regsSameBut_writeReg _ lo (lowByte v))
  refine ⟨_, completesWith_of_exec_eq (exec_setPair_regIndex hi lo v s) ?_ ?_, fun hne => ?_, ?_,
    regsSameBut_answer hframe _, ?_, ?_⟩
  · simp only [writeReg_respOut]
  · simp only [writeReg_cmdIn]
  · rw [answer_readReg, readReg_writePair_hi hne]
  · rw [answer_readReg, readReg_writeReg_kept]
  · simp only [answer_sp, writeReg_sp]
  · simp only [answer_mem, writeReg_mem]

end Sys2Proof.Machine
end

section
/-! ### The flag encoder, the flag updater and the flag commands (41_flags.md R75 to R80) -/

namespace Sys2Proof.Machine

open Sys2Proof.Statements

/-! #### The flag encoder -/

/-- Settles O9, on the sixteen inputs of the encoder. -/
theorem flagEncoderPlacesFourBits : Obligations.FlagEncoderPlacesFourBits := by
  unfold Obligations.FlagEncoderPlacesFourBits
  decide

/-! #### The flag updater and the low nibble of a flag byte -/

/-- An update at bit 4 or above leaves the low nibble as it was. -/
theorem flagUpd_and_low (old : Byte) {sh : Nat} (hsh : 4 ≤ sh) (b : Bool) :
    flagUpd old sh b &&& 0x0F = old &&& 0x0F := by
  apply BitVec.eq_of_getLsbD_eq
  intro i hi
  rw [BitVec.getLsbD_and, BitVec.getLsbD_and, flagUpd_getLsbD old sh b hi]
  by_cases h : i = sh
  · subst h
    have hmask : (0x0F : Byte).getLsbD i = false := by interval_cases i <;> rfl
    rw [hmask, Bool.and_false, Bool.and_false]
  · rw [if_neg h]

/-- A byte with a zero low nibble loses nothing when it is written to F (R13). -/
theorem and_high_of_and_low_eq_zero {x : Byte} (h : x &&& 0x0F = 0) : x &&& 0xF0 = x := by
  calc x &&& 0xF0 = (x &&& 0xF0) ||| (x &&& 0x0F) := by rw [h]; exact BitVec.or_zero.symm
    _ = x &&& 0xFF := by rw [← BitVec.and_or_distrib_left]; rfl
    _ = x := byte_and_full x

/-- Settles O10: the bits one by one, and the low nibble lies below every flag. -/
theorem flagUpdaterChangesOneBit : Obligations.FlagUpdaterChangesOneBit :=
  fun old sh b hlo _ =>
    ⟨fun _ hi => flagUpd_getLsbD old sh b hi, fun hz => (flagUpd_and_low old hlo b).trans hz⟩

/-- R78: of the zero bits of a zero-extended byte's response value only the low nibble is up to the byte. -/
theorem setWidth_and_FF0F (x : Byte) : (x.setWidth 16 : Word16) &&& 0xFF0F = (x &&& 0x0F).setWidth 16 := by
  apply BitVec.eq_of_getLsbD_eq
  intro i hi
  interval_cases i <;> simp

/-! #### The positions of the flags (R14) -/

theorem flagBit_eq_position (g : Flag) : flagBit g = position g := by cases g <;> rfl

theorem four_le_position (g : Flag) : 4 ≤ position g := by cases g <;> decide

theorem position_lt_eight (g : Flag) : position g < 8 := by cases g <;> decide

theorem position_injective : Function.Injective position := by
  intro g g'
  cases g <;> cases g' <;> decide

/-! #### The commands on known flags -/

theorem exec_flagShift_flagIndex (g : Flag) (s : State) :
    exec (.flagShift (flagIndex g)) s = complete (BitVec.ofNat 16 (position g)) s := by
  simp only [exec, execFlagShift, flagNamed_flagIndex, attempt_ok, flagBit_eq_position]

/-- A bit as a response value. -/
theorem setWidth_ofBool (b : Bool) : ((BitVec.ofBool b).setWidth 16 : Word16) = if b then 1 else 0 := by
  cases b <;> rfl

theorem exec_getFlag_flagIndex (g : Flag) (s : State) :
    exec (.getFlag (flagIndex g)) s = complete (if (s.readReg .F).getLsbD (position g) then 1 else 0) s := by
  simp only [exec, execGetFlag, flagNamed_flagIndex, attempt_ok, flagBit_eq_position, setWidth_ofBool]
  rfl

/-- `set_flag` of a known flag completes with F updated at the flag's bit. -/
theorem exec_setFlag_flagIndex (g : Flag) (b : Bool) (s : State) :
    exec (.setFlag (flagIndex g) b) s = complete 0 (s.writeReg .F (flagUpd (s.readReg .F) (position g) b)) := by
  simp only [exec, execSetFlag, flagNamed_flagIndex, attempt_ok, flagBit_eq_position, State.readReg, State.writeReg]

/-- F written with its own update at a flag's bit reads as that update, whose low nibble is zero as F's was. -/
theorem readReg_F_writeReg_F_flagUpd (g : Flag) (b : Bool) (s : State) :
    (s.writeReg .F (flagUpd (s.readReg .F) (position g) b)).readReg .F = flagUpd (s.readReg .F) (position g) b := by
  rw [readReg_F_writeReg_F]
  apply and_high_of_and_low_eq_zero
  rw [flagUpd_and_low _ (four_le_position g), readReg_F_and_low]

/-! #### Their rows of the decoder (R47, R52) -/

theorem decodesAs_flagShift : DecodesAs 0x04 (fun w => .flagShift (raField w)) :=
  fun w (hop : opField w = 0x04) => by simp only [decode, hop]; rfl

theorem decodesAs_getFlags : DecodesAs 0x05 (fun _ => .getFlags) :=
  fun w (hop : opField w = 0x05) => by simp only [decode, hop]; rfl

theorem decodesAs_getFlag : DecodesAs 0x06 (fun w => .getFlag (raField w)) :=
  fun w (hop : opField w = 0x06) => by simp only [decode, hop]; rfl

theorem decodesAs_setFlag : DecodesAs 0x07 (fun w => .setFlag (raField w) (d0Field w)) :=
  fun w (hop : opField w = 0x07) => by simp only [decode, hop]; rfl

/-! #### The statements -/

/-- Settles O25: a known flag is answered from the table, and an unknown one fails the check. -/
theorem flagShiftReturnsThePosition : Obligations.FlagShiftReturnsThePosition :=
  ⟨decodesAs_flagShift, exec_flagShift_flagIndex, fun _ _ hf => faultsWith_of_check_error rfl (flagNamed_of_le hf)⟩

/-- Settles O26: `get_flags` answers the register F, whose low nibble is zero. -/
theorem getFlagsReturnsF : Obligations.GetFlagsReturnsF := by
  refine ⟨decodesAs_getFlags, fun s => ⟨rfl, (exec_get_regIndex .F s).symm, ?_⟩⟩
  rw [setWidth_and_FF0F, readReg_F_and_low]
  rfl

/-- Settles O27: a known flag's bit is answered, and an unknown flag fails the check. -/
theorem getFlagReturnsOneBit : Obligations.GetFlagReturnsOneBit :=
  ⟨decodesAs_getFlag, exec_getFlag_flagIndex, fun _ _ hf => faultsWith_of_check_error rfl (flagNamed_of_le hf)⟩

/-- Settles O28: on a known flag `set_flag` is one write of F, and the updater changes one bit of it. -/
theorem setFlagChangesOneFlag : Obligations.SetFlagChangesOneFlag := by
  refine ⟨decodesAs_setFlag, fun g b s => ?_, fun f b s hf => faultsWith_of_check_error rfl (flagNamed_of_le hf)⟩
  have hF := readReg_F_writeReg_F_flagUpd g b s
  refine ⟨_, completesWith_of_exec_eq (exec_setFlag_flagIndex g b s) (writeReg_respOut s .F _) (writeReg_cmdIn s .F _),
    ?_, ?_, fun g' hne => ?_, readReg_F_and_low _, regsSameBut_answer (regsSameBut_writeReg s .F _) _, ?_, ?_⟩
  · rw [answer_readReg, hF]
  · rw [answer_readReg, hF, flagUpd_getLsbD _ _ _ (position_lt_eight g), if_pos rfl]
  · rw [answer_readReg, hF, flagUpd_getLsbD _ _ _ (position_lt_eight g'), if_neg (position_injective.ne hne)]
  · rw [answer_sp, writeReg_sp]
  · rw [answer_mem, writeReg_mem]

end Sys2Proof.Machine
end

section
/-! ### The operand decoder (42_operand_decode.md R85 to R87) -/

namespace Sys2Proof.Machine

open Sys2Proof.Statements

/-! #### The r8 table and `RESOLVE8` -/

/-- R85: the codes 8 to 255 have no entry in the table. -/
theorem r8dec_of_le {code : Byte} (h : 8 ≤ code.toNat) : r8dec code = .invalid := by
  unfold r8dec
  split
  case h_9 => rfl
  all_goals omega

theorem resolve8_of_register {code : Byte} {r : Reg} (h : r8dec code = .register r) (s : State) :
    resolve8 code s = .ok (s.readReg r) := by
  simp only [resolve8, h]

/-- R87, R123: a code that selects no register is reported with the code, the marker of code 6 included. -/
theorem resolve8_of_ne_register {code : Byte} (h : ∀ r, r8dec code ≠ .register r) (s : State) :
    resolve8 code s = .error ⟨.invalidOperandCode, code.setWidth 16⟩ := by
  obtain ⟨r, hr, -⟩ | ⟨-, herr⟩ := resolve8_cases code s
  · exact absurd hr (h r)
  · exact herr

/-- R85: code 6 and the codes 8 to 255 select no register. -/
theorem r8dec_ne_register {code : Byte} (h : code = 6 ∨ 8 ≤ code.toNat) (r : Reg) : r8dec code ≠ .register r := by
  obtain rfl | hle := h
  · exact nofun
  · rw [r8dec_of_le hle]
    exact nofun

/-- Settles O11, the table row by row and the laws of the table and of `RESOLVE8`. -/
theorem operandCodeTableAndResolve : Obligations.OperandCodeTableAndResolve :=
  ⟨rfl, rfl, rfl, rfl, rfl, rfl, rfl, rfl, fun _ => r8dec_of_le, r8dec_ne_F,
    fun _ _ s h => resolve8_of_register h s, fun _ s h => resolve8_of_ne_register (r8dec_ne_register h) s⟩

/-! #### `operand_register` -/

theorem operandName_of_le {code : Byte} (h : 8 ≤ code.toNat) :
    operandName code = .error ⟨.invalidOperandCode, code.setWidth 16⟩ := by
  simp only [operandName, r8dec_of_le h]

/-- R86: a code with an entry in the table is answered with the value of the entry, and nothing else changes. -/
theorem onlyAnswers_operandRegister {code : Byte} {v : Word16} (h : operandName code = .ok v) (s : State) :
    OnlyAnswers (.operandRegister code) s v := by
  simp only [OnlyAnswers, exec, execOperandRegister, h, attempt_ok, complete_eq]

theorem decodesAs_operandRegister : DecodesAs 0x08 (fun w => .operandRegister (d8Field w)) :=
  fun w (hop : opField w = 0x08) => by simp only [decode, hop]; rfl

/-- Settles O31: each of the eight entries is answered from the table, and a code past them fails the check. -/
theorem operandRegisterReturnsTheTableEntry : Obligations.OperandRegisterReturnsTheTableEntry := by
  refine ⟨decodesAs_operandRegister, fun s => ?_, fun _ _ h => faultsWith_of_check_error rfl (operandName_of_le h)⟩
  refine ⟨?_, ?_, ?_, ?_, ?_, ?_, ?_, ?_⟩ <;> exact onlyAnswers_operandRegister rfl s

end Sys2Proof.Machine
end

section
/-! ### The additions into A (43_add8.md R90, R92 to R95) -/

namespace Sys2Proof.Machine

open Sys2Proof.Statements

/-! #### Sums formed one bit wider than their terms (R90, R100) -/

/-- A sum formed one bit wider than its terms is exact. -/
theorem toNat_widened_sum {w : Nat} (a b : BitVec w) :
    (a.setWidth (w + 1) + b.setWidth (w + 1)).toNat = a.toNat + b.toNat := by
  have hpow : 2 ^ (w + 1) = 2 * 2 ^ w := Nat.pow_succ'
  have ha := a.isLt
  have hb := b.isLt
  rw [BitVec.toNat_add, BitVec.toNat_setWidth, BitVec.toNat_setWidth, ← Nat.add_mod, Nat.mod_eq_of_lt (by omega)]

/-- The low part of such a sum is the sum modulo `2 ^ w`. -/
theorem toNat_low_widened_sum {w : Nat} (a b : BitVec w) :
    ((a.setWidth (w + 1) + b.setWidth (w + 1)).extractLsb' 0 w).toNat = (a.toNat + b.toNat) % 2 ^ w := by
  rw [BitVec.extractLsb'_toNat, toNat_widened_sum, Nat.shiftRight_zero]

/-- The top bit of such a sum is the carry. -/
theorem getLsbD_widened_sum {w : Nat} (a b : BitVec w) :
    (a.setWidth (w + 1) + b.setWidth (w + 1)).getLsbD w = decide (2 ^ w ≤ a.toNat + b.toNat) := by
  have hlt : a.toNat + b.toNat < 2 ^ w * 2 := by
    rw [← toNat_widened_sum, ← Nat.pow_succ]
    exact BitVec.isLt _
  have hdiv := Nat.div_lt_of_lt_mul hlt
  rw [← BitVec.testBit_toNat, Nat.testBit_eq_decide_div_mod_eq, toNat_widened_sum, Nat.mod_eq_of_lt hdiv,
    decide_eq_decide, ← Nat.one_le_div_iff (Nat.two_pow_pos w)]
  omega

/-- R90: the half-carry of two bytes is the carry of their low nibbles. -/
theorem halfCarry8_eq (a b : Byte) : halfCarry8 a b = decide (15 < a.toNat % 16 + b.toNat % 16) := by
  simp only [halfCarry8, halfCarry4, GT.gt, BitVec.lt_def, toNat_widened_sum, BitVec.extractLsb'_toNat,
    Nat.shiftRight_zero]
  rfl

/-- Settles O12: the nine-bit sum is exact, so its low byte, its top bit and the nibbles' sum are the three results. -/
theorem eightBitAdder : Obligations.EightBitAdder :=
  fun a b => ⟨toNat_low_widened_sum a b, halfCarry8_eq a b, getLsbD_widened_sum a b⟩

/-! #### How the commands end on a checked operand -/

/-- R93: the model's sum under ADC_WRAP is the rule's, the carry flag taken as a byte. -/
theorem addcSum_adcWrap (a b : Byte) (s : State) : addcSum Config.adcWrap a b s.flagC = addcRule a b (carryIn s) := by
  have hci : (BitVec.ofBool s.flagC).setWidth 8 = carryIn s := by
    unfold carryIn State.flagC
    cases s.flagByte.getLsbD 4 <;> rfl
  rw [← hci]
  rfl

theorem exec_add {code b : Byte} {s : State} (h : resolve8 code s = .ok b) :
    exec (.add code) s = finishA (add8 s.a b) s := by
  simp only [exec, execAdd, h, attempt_ok]

theorem exec_addc {code b : Byte} {s : State} (h : resolve8 code s = .ok b) :
    exec (.addc code) s = finishA (addcRule s.a b (carryIn s)) s := by
  simp only [exec, execAddc, h, attempt_ok, addcSum_adcWrap]

theorem exec_addcHl {b : Byte} {s : State} (h : s.readMem s.hl = .ok b) :
    exec .addcHl s = finishA (addcRule s.a b (carryIn s)) s := by
  simp only [exec, execAddcHl, h, attempt_ok, addcSum_adcWrap]

/-- R91: a command that ends as an addition into A changes A and F, by its sum, and nothing else. -/
theorem addsToA_of_exec_eq {i : Instr} {s : State} {o : Sum 8} (h : exec i s = finishA o s) : AddsToA i s o := by
  have hframe := regsSameBut_trans (regsSameBut_writeReg s .F (sumFlags o)) (regsSameBut_writeReg _ .A o.res)
  refine ⟨_, ⟨h, rfl, rfl⟩, rfl, flagByte_writeSumFlags o s, fun r hr => ?_, rfl, rfl⟩
  exact regsSameBut_answer hframe _ r (by simpa [or_comm] using hr)

/-! #### Their rows of the decoder (R47, R52) -/

theorem decodesAs_add : DecodesAs 0x09 (fun w => .add (d8Field w)) :=
  fun w (hop : opField w = 0x09) => by simp only [decode, hop]; rfl

theorem decodesAs_addc : DecodesAs 0x0A (fun w => .addc (d8Field w)) :=
  fun w (hop : opField w = 0x0A) => by simp only [decode, hop]; rfl

theorem decodesAs_addcHl : DecodesAs 0x0B (fun _ => .addcHl) :=
  fun w (hop : opField w = 0x0B) => by simp only [decode, hop]; rfl

theorem decodesAs_addN8 : DecodesAs 0x0C (fun w => .addN8 (d8Field w)) :=
  fun w (hop : opField w = 0x0C) => by simp only [decode, hop]; rfl

/-! #### The statements of the four commands -/

/-- Settles O32: a plain register's value is added, and any other code fails the check. -/
theorem addAddsTheRegister : Obligations.AddAddsTheRegister :=
  ⟨decodesAs_add, fun _ _ s h => addsToA_of_exec_eq (exec_add (resolve8_of_register h s)),
    fun _ _ h => faultsWith_of_check_error rfl (resolve8_of_ne_register (r8dec_ne_register h) _)⟩

/-- Settles O33: a plain register's value is added with the carry, and any other code fails the check. -/
theorem addcAddsTheRegisterAndCarry : Obligations.AddcAddsTheRegisterAndCarry :=
  ⟨decodesAs_addc, fun _ _ s h => addsToA_of_exec_eq (exec_addc (resolve8_of_register h s)),
    fun _ _ h => faultsWith_of_check_error rfl (resolve8_of_ne_register (r8dec_ne_register h) _)⟩

/-- Every address but 0xFFFF has a cell (R30, C1). -/
theorem toNat_lt_memCells {a : Word16} (h : a ≠ 0xFFFF) : a.toNat < Config.memCells := by
  have hne : a.toNat ≠ 65535 := fun he => h (BitVec.eq_of_toNat_eq he)
  change a.toNat < 65535
  omega

/-- Settles O34: below 0xFFFF there is a byte to add with the carry, and at 0xFFFF the read fails the check. -/
theorem addcHlAddsTheMemoryByteAndCarry : Obligations.AddcHlAddsTheMemoryByteAndCarry := by
  refine ⟨decodesAs_addcHl, fun s hne => ?_, fun s hHl => ?_⟩
  · have hread := readMem_of_lt (toNat_lt_memCells hne) s
    exact ⟨_, hread, addsToA_of_exec_eq (exec_addcHl hread)⟩
  · have hread : s.readMem s.hl = .error ⟨.memoryBounds, 0xFFFF⟩ := by
      rw [State.hl, hHl]
      exact readMem_of_le memCells_le_0xFFFF s
    exact faultsWith_of_check_error rfl hread

/-- Settles O35: the immediate is added, with nothing to check. -/
theorem addN8AddsTheImmediate : Obligations.AddN8AddsTheImmediate :=
  ⟨decodesAs_addN8, fun _ _ => addsToA_of_exec_eq rfl⟩

end Sys2Proof.Machine
end

section
/-! ### The contract of the ADD family (43_add8.md R91) -/

namespace Sys2Proof.Machine

open Sys2Proof.Statements

/-! #### What a completion says -/

/-- A command completes in one state and with one value. -/
theorem completesWith_unique {i : Instr} {s t t' : State} {v v' : Word16} (h : CompletesWith i s t v)
    (h' : CompletesWith i s t' v') : t = t' ∧ v = v' := by
  obtain ⟨he, hr, -⟩ := h
  obtain ⟨he', hr', -⟩ := h'
  obtain rfl : t = t' := by rw [he] at he'; cases he'; rfl
  rw [hr] at hr'
  simpa using hr'

/-- R126: a command that completes has passed its check. -/
theorem check_ok_of_completesWith {i : Instr} {s t : State} {v : Word16} (h : CompletesWith i s t v) {α : Type}
    {x : Except Raised α} {next : α → Result} (hi : exec i s = attempt x s next) : ∃ b, x = .ok b := by
  cases x with
  | ok b => exact ⟨b, rfl⟩
  | error r =>
    obtain ⟨he, hr, -⟩ := h
    rw [hi, attempt_error, takeFault_eq] at he
    cases he
    simp at hr

/-! #### The sum behind a completed addition -/

/-- The addition `i` completes from `s` with its destination and F as the sum `o` gives them (R91). -/
def EndsInSum (i : Instr) (s : State) {w : Nat} (o : Sum w) : Prop :=
  ∃ t, CompletesWith i s t 0 ∧ destination t i = some o.res.toNat ∧ t.readReg .F = sumFlags o

/-- R65, R66: a pair put together from its two bytes. -/
theorem pair_highByte_lowByte (v : Word16) : pair (highByte v) (lowByte v) = v := by
  apply BitVec.eq_of_getLsbD_eq
  intro k hk
  interval_cases k <;> simp [pair, highByte, lowByte]

theorem endsInSum_of_finishA {i : Instr} {s : State} {o : Sum 8} (h : exec i s = finishA o s)
    (hd : ∀ t, destination t i = some t.a.toNat) : EndsInSum i s o :=
  ⟨_, ⟨h, rfl, rfl⟩, hd _, flagByte_writeSumFlags o s⟩

theorem endsInSum_of_finishHl {i : Instr} {s : State} {o : Sum 16} (h : exec i s = finishHl o s)
    (hd : ∀ t, destination t i = some (pair t.h t.l).toNat) : EndsInSum i s o :=
  ⟨_, ⟨h, rfl, rfl⟩, (hd _).trans (congrArg (fun v => some v.toNat) (pair_highByte_lowByte o.res)),
    flagByte_writeSumFlags o s⟩

theorem endsInSum_of_finishSp {i : Instr} {s : State} {o : Sum 16} (h : exec i s = finishSp o s)
    (hd : ∀ t, destination t i = some t.sp.toNat) : EndsInSum i s o :=
  ⟨_, ⟨h, rfl, rfl⟩, hd _, flagByte_writeSumFlags o s⟩

/-! #### Other flags -/

/-- R85, R87: no operand code reads F, so the operand does not depend on the flags. -/
theorem resolve8_withFlags (code : Byte) (s : State) (f : Nibble) :
    resolve8 code { s with fHigh := f } = resolve8 code s := by
  refine resolve8_congr fun r hr => ?_
  cases r with
  | F => simp [codeNames, r8dec_ne_F] at hr
  | A | B | C | D | E | H | L => rfl

/-- R13, R14: the carry flag is bit 0 of the stored nibble of F. -/
theorem flagByte_getLsbD_C (s : State) : s.flagByte.getLsbD 4 = s.fHigh.getLsbD 0 := by
  simp [State.flagByte]

/-- The carry-in is bit 0 of the stored nibble of F (R13, R14). -/
theorem carryIn_withFlags {s : State} {f : Nibble} (h : f.getLsbD 0 = s.fHigh.getLsbD 0) :
    carryIn { s with fHigh := f } = carryIn s := by
  rw [carryIn, carryIn, flagByte_getLsbD_C, flagByte_getLsbD_C, h]

/-- R91: a completed addition has one sum, in which it ends from the same state with any flags, the carry-in of `addc`
and `addc_hl` apart. -/
theorem exists_sum_of_completesWith {i : Instr} {s t : State} {v : Word16} {d : Nat} (h : CompletesWith i s t v)
    (hd : destination t i = some d) :
    ∃ (w : Nat) (o : Sum w), ∀ f : Nibble, (readsCarry i → f.getLsbD 0 = s.fHigh.getLsbD 0) →
      EndsInSum i { s with fHigh := f } o := by
  cases i with
  | add code =>
    obtain ⟨b, hb⟩ := check_ok_of_completesWith (x := resolve8 code s) h rfl
    refine ⟨8, add8 s.a b, fun f _ => endsInSum_of_finishA (exec_add ?_) fun _ => rfl⟩
    rw [resolve8_withFlags, hb]
  | addc code =>
    obtain ⟨b, hb⟩ := check_ok_of_completesWith (x := resolve8 code s) h rfl
    refine ⟨8, addcRule s.a b (carryIn s), fun f hf => endsInSum_of_finishA ?_ fun _ => rfl⟩
    rw [← carryIn_withFlags (hf (.inl ⟨code, rfl⟩))]
    exact exec_addc ((resolve8_withFlags code s f).trans hb)
  | addcHl =>
    obtain ⟨b, hb⟩ := check_ok_of_completesWith (x := s.readMem s.hl) h rfl
    refine ⟨8, addcRule s.a b (carryIn s), fun f hf => endsInSum_of_finishA ?_ fun _ => rfl⟩
    rw [← carryIn_withFlags (hf (.inr rfl))]
    exact exec_addcHl hb
  | addN8 v => exact ⟨8, add8 s.a v, fun f _ => endsInSum_of_finishA rfl fun _ => rfl⟩
  | addHlR16 v => exact ⟨16, add16 s.hl v, fun f _ => endsInSum_of_finishHl rfl fun _ => rfl⟩
  | addHlSp => exact ⟨16, add16 s.hl s.sp, fun f _ => endsInSum_of_finishHl rfl fun _ => rfl⟩
  | addSpE8 e => exact ⟨16, spAdd s.sp e, fun f _ => endsInSum_of_finishSp rfl fun _ => rfl⟩
  | _ => cases hd

/-- R75, R91: bit 7 of the flags of a sum is Z, "the result is 0". -/
theorem sumFlags_getLsbD_Z {w : Nat} (o : Sum w) : (sumFlags o).getLsbD 7 = decide (o.res.toNat = 0) := by
  have hZ : ∀ z s hc c : Bool, (flagEnc z s hc c).getLsbD 7 = z := by decide
  rw [sumFlags, hZ, Bool.eq_iff_iff, beq_iff_eq, decide_eq_true_iff]
  simp [BitVec.toNat_eq]

/-- What the sum fixes of the state a command completes in. -/
theorem EndsInSum.of_completesWith {i : Instr} {s t : State} {v : Word16} {d w : Nat} {o : Sum w}
    (ho : EndsInSum i s o) (h : CompletesWith i s t v) (hd : destination t i = some d) :
    v = 0 ∧ d = o.res.toNat ∧ t.readReg .F = sumFlags o := by
  obtain ⟨t', h', hd', hF⟩ := ho
  obtain ⟨rfl, rfl⟩ := completesWith_unique h h'
  rw [hd] at hd'
  exact ⟨rfl, Option.some.inj hd', hF⟩

/-- Settles O42: the sum of a completed addition fixes Z and S, and it is the sum from any other flags as well. -/
theorem additionFlagContract : Obligations.AdditionFlagContract := by
  constructor
  · intro i s t v d h hd
    obtain ⟨w, o, ho⟩ := exists_sum_of_completesWith h hd
    obtain ⟨hv, rfl, hF⟩ := (ho s.fHigh fun _ => rfl).of_completesWith h hd
    rw [hF]
    exact ⟨hv, sumFlags_getLsbD_Z o, sumFlags_getLsbD_S o⟩
  · intro i s t f d h hd hcarry
    obtain ⟨w, o, ho⟩ := exists_sum_of_completesWith h hd
    obtain ⟨-, rfl, hF⟩ := (ho s.fHigh fun _ => rfl).of_completesWith h hd
    rw [hF]
    obtain ⟨t', h', hd', hF'⟩ := ho f hcarry
    exact ⟨t', h', hF', hd'⟩

end Sys2Proof.Machine
end

section
/-! ### The 16-bit additions (44_add16.md R100 to R104) -/

namespace Sys2Proof.Machine

open Sys2Proof.Statements

/-! #### The adders -/

/-- R90, R104: the carry out of bit 3 says that two nibbles add to more than 15. -/
theorem halfCarry4_eq (a b : Nibble) : halfCarry4 a b = decide (15 < a.toNat + b.toNat) := by
  simp only [halfCarry4, GT.gt, BitVec.lt_def, toNat_widened_sum]
  rfl

/-- R100: the carry out of bit 11 says that the low twelve bits add to more than 4095. -/
theorem halfCarry16_eq (a b : Word16) : halfCarry16 a b = decide (4095 < a.toNat % 4096 + b.toNat % 4096) := by
  simp only [halfCarry16, GT.gt, BitVec.lt_def, toNat_widened_sum, BitVec.extractLsb'_toNat, Nat.shiftRight_zero]
  rfl

/-- Settles O13: the 17-bit sum is exact, so its low 16 bits, its top bit and the sum of the low twelve bits are the
three results. -/
theorem sixteenBitAdder : Obligations.SixteenBitAdder :=
  fun a b => ⟨toNat_low_widened_sum a b, halfCarry16_eq a b, getLsbD_widened_sum a b⟩

/-- R100, R104: the non-negative branch adds as `ADD16` of the zero-extended immediate does, but for the half-carry,
which is that of the low nibbles. -/
theorem spAddNonneg_eq_add16 (sp : Word16) (e : Byte) :
    spAddNonneg sp e =
      { add16 sp (e.setWidth 16) with hc := halfCarry4 (sp.extractLsb' 0 4) (e.extractLsb' 0 4) } := by
  have he : (e.setWidth 16).setWidth 17 = e.setWidth 17 := BitVec.setWidth_setWidth (by decide)
  simp only [spAddNonneg, add16, he]

/-- Settles O14: result and carry are those of `ADD16`, and the half-carry is the carry of the low nibbles; neither
depends on bit 7 of the immediate. -/
theorem nonNegativeStackPointerAdder : Obligations.NonNegativeStackPointerAdder := by
  intro sp e _
  obtain ⟨hres, -, hcy⟩ := sixteenBitAdder sp (e.setWidth 16)
  rw [BitVec.toNat_setWidth_of_le (by decide)] at hres hcy
  rw [spAddNonneg_eq_add16]
  refine ⟨hres, ?_, hcy⟩
  simp only [halfCarry4_eq, BitVec.extractLsb'_toNat, Nat.shiftRight_zero, Nat.reducePow]

/-! #### How the commands end -/

/-- R91, R101: a command that ends as an addition into HL changes H, L and F, by its sum, and nothing else. -/
theorem addsToHl_of_exec_eq {i : Instr} {s : State} {o : Sum 16} (h : exec i s = finishHl o s) : AddsToHl i s o := by
  have hframe := regsSameBut_trans (regsSameBut_writeReg s .F (sumFlags o))
    (regsSameBut_trans (regsSameBut_writeReg _ .H (highByte o.res)) (regsSameBut_writeReg _ .L (lowByte o.res)))
  refine ⟨_, ⟨h, rfl, rfl⟩, rfl, rfl, flagByte_writeSumFlags o s, fun r hr => ?_, rfl, rfl⟩
  exact regsSameBut_answer hframe _ r (by simpa [and_comm, and_left_comm] using hr)

/-- R91, R103: a command that ends as an addition into SP changes SP and F, by its sum, and nothing else. -/
theorem addsToSp_of_exec_eq {i : Instr} {s : State} {o : Sum 16} (h : exec i s = finishSp o s) : AddsToSp i s o := by
  have hframe : RegsSameBut [.F] s { s.writeSumFlags o with sp := o.res } := fun r hr =>
    (readReg_withSp _ _ r).trans (regsSameBut_writeReg s .F (sumFlags o) r hr)
  exact ⟨_, ⟨h, rfl, rfl⟩, rfl, flagByte_writeSumFlags o s, regsSameBut_answer hframe _, rfl⟩

/-- R103: bit 7 of the immediate clear, the sum is that of the non-negative branch. -/
theorem spAdd_of_nonneg {e : Byte} (he : e.getLsbD 7 = false) (sp : Word16) : spAdd sp e = spAddNonneg sp e :=
  if_pos he

/-- R103: bit 7 of the immediate set, the sum is that of the negative branch. -/
theorem spAdd_of_neg {e : Byte} (he : e.getLsbD 7 = true) (sp : Word16) : spAdd sp e = spAddNeg sp e :=
  if_neg (by rw [he]; decide)

/-! #### Their rows of the decoder (R47, R52) -/

theorem decodesAs_addHlR16 : DecodesAs 0x0D (fun w => .addHlR16 (dField w)) :=
  fun w (hop : opField w = 0x0D) => by simp only [decode, hop]; rfl

theorem decodesAs_addHlSp : DecodesAs 0x0E (fun _ => .addHlSp) :=
  fun w (hop : opField w = 0x0E) => by simp only [decode, hop]; rfl

theorem decodesAs_addSpE8 : DecodesAs 0x0F (fun w => .addSpE8 (d8Field w)) :=
  fun w (hop : opField w = 0x0F) => by simp only [decode, hop]; rfl

/-! #### The statements of the three commands -/

/-- Settles O38: the command ends as an addition into HL of the value, with nothing to check. -/
theorem addHlR16AddsTheValue : Obligations.AddHlR16AddsTheValue :=
  ⟨decodesAs_addHlR16, fun _ _ => addsToHl_of_exec_eq rfl⟩

/-- Settles O39: both commands end as the addition into HL of the same sum. -/
theorem addHlSpAddsTheStackPointer : Obligations.AddHlSpAddsTheStackPointer :=
  ⟨decodesAs_addHlSp, fun _ => ⟨addsToHl_of_exec_eq rfl, rfl⟩⟩

/-- Settles O40: the command ends as an addition into SP of the sum that bit 7 of the immediate selects. -/
theorem addSpE8AddsTheSignedByte : Obligations.AddSpE8AddsTheSignedByte := by
  refine ⟨decodesAs_addSpE8, fun e s he => ?_, fun e s he => ?_⟩
  · rw [← spAdd_of_nonneg he]
    exact addsToSp_of_exec_eq rfl
  · rw [← spAdd_of_neg he]
    exact addsToSp_of_exec_eq rfl

end Sys2Proof.Machine
end

section
/-! ### The host-access commands (45_host_access.md R110 to R113) -/

namespace Sys2Proof.Machine

open Sys2Proof.Statements

/-! #### Writing memory (R34) -/

/-- R34: a write at an address with a cell updates the block. -/
theorem writeMem_of_lt {a : Word16} (ha : a.toNat < Config.memCells) (v : Byte) (s : State) :
    s.writeMem a v = .ok { s with mem := s.mem.update a.toNat v } := by
  obtain ⟨-, hok⟩ | ⟨hout, -⟩ := writeMem_cases a v s
  · exact hok
  · exact absurd ha (Nat.not_lt.mpr hout)

/-- R34, R124: a write past the last cell is reported as `MemoryBounds`. -/
theorem writeMem_of_le {a : Word16} (ha : Config.memCells ≤ a.toNat) (v : Byte) (s : State) :
    s.writeMem a v = .error ⟨.memoryBounds, a⟩ := by
  obtain ⟨hin, -⟩ | ⟨-, herr⟩ := writeMem_cases a v s
  · exact absurd hin (Nat.not_lt.mpr ha)
  · exact herr

/-- R34: what every address reads after a write of one cell. -/
theorem readMem_update {s : State} (hs : s.Inv) {a : Word16} (ha : a.toNat < Config.memCells) (v : Byte) (a' : Word16) :
    { s with mem := s.mem.update a.toNat v }.readMem a' = if a' = a then .ok v else s.readMem a' := by
  split_ifs with h
  · rw [h, readMem_update_same hs ha]
  · exact readMem_update_other h v s

/-! #### The commands at an address with a cell, and past the last cell -/

/-- R112: the byte of the cell is answered, and nothing else changes. -/
theorem onlyAnswers_memGet {a : Word16} {b : Byte} {s : State} (h : s.readMem a = .ok b) :
    OnlyAnswers (.memGet a) s (b.setWidth 16) := by
  simp only [OnlyAnswers, exec, execMemGet, h, attempt_ok, complete_eq]

theorem faultsWith_memGet_of_le {a : Word16} (ha : Config.memCells ≤ a.toNat) (s : State) :
    FaultsWith (.memGet a) s .memoryBounds a :=
  faultsWith_of_check_error rfl (readMem_of_le ha s)

/-- R113: `mem_set` completes with the block updated at that cell. -/
theorem exec_memSet_of_lt {a : Word16} (ha : a.toNat < Config.memCells) (v : Byte) (s : State) :
    exec (.memSet a v) s = complete 0 { s with mem := s.mem.update a.toNat v } := by
  simp only [exec, execMemSet, writeMem_of_lt ha, attempt_ok]

theorem faultsWith_memSet_of_le {a : Word16} (ha : Config.memCells ≤ a.toNat) (v : Byte) (s : State) :
    FaultsWith (.memSet a v) s .memoryBounds a :=
  faultsWith_of_check_error rfl (writeMem_of_le ha v s)

/-! #### Their rows of the decoder (R47, R52) -/

theorem decodesAs_spGet : DecodesAs 0x10 (fun _ => .spGet) :=
  fun w (hop : opField w = 0x10) => by simp only [decode, hop]; rfl

theorem decodesAs_spSet : DecodesAs 0x11 (fun w => .spSet (dField w)) :=
  fun w (hop : opField w = 0x11) => by simp only [decode, hop]; rfl

theorem decodesAs_memGet : DecodesAs 0x12 (fun w => .memGet (dField w)) :=
  fun w (hop : opField w = 0x12) => by simp only [decode, hop]; rfl

theorem decodesAs_memSet : DecodesAs 0x13 (fun w => .memSet (dField w) (dataField w)) :=
  fun w (hop : opField w = 0x13) => by simp only [decode, hop]; rfl

/-! #### The statements -/

/-- Settles O46: below 0xFFFF `mem_set` is one write of memory, read back by the invariant; at 0xFFFF the write fails
the check. -/
theorem memSetWritesOneCell : Obligations.MemSetWritesOneCell := by
  refine ⟨decodesAs_memSet, fun a v s hs hne => ?_, faultsWith_memSet_of_le memCells_le_0xFFFF⟩
  have ha := toNat_lt_memCells hne
  refine ⟨_, completesWith_of_exec_eq (exec_memSet_of_lt ha v s) rfl rfl, fun a' => ?_, fun r _ => ?_, rfl⟩
  · rw [answer_readMem, readMem_update hs ha]
  · rw [answer_readReg, readReg_withMem]

/-- Settles O43: `sp_get` completes from the state it was given, with nothing to check. -/
theorem spGetReturnsSp : Obligations.SpGetReturnsSp := ⟨decodesAs_spGet, fun s => complete_eq s.sp s⟩

/-- Settles O44: `sp_set` completes with SP replaced, with nothing to check. -/
theorem spSetLoadsSp : Obligations.SpSetLoadsSp := by
  refine ⟨decodesAs_spSet, fun v s => ⟨_, completesWith_of_exec_eq rfl rfl rfl, rfl, fun r _ => ?_, rfl⟩⟩
  rw [answer_readReg, readReg_withSp]

/-- Settles O45: below 0xFFFF there is a byte to answer, and at 0xFFFF the read fails the check. -/
theorem memGetReturnsTheCell : Obligations.MemGetReturnsTheCell := by
  refine ⟨decodesAs_memGet, fun a s hne => ?_, faultsWith_memGet_of_le memCells_le_0xFFFF⟩
  have hread := readMem_of_lt (toNat_lt_memCells hne) s
  exact ⟨_, hread, onlyAnswers_memGet hread⟩

end Sys2Proof.Machine
end

section
/-! ### The faults (60_exceptions.md R120 to R127) -/

namespace Sys2Proof.Machine

open Sys2Proof.Statements

/-! #### What the checks raise -/

/-- What a check raises, as an entry of the fault table. -/
def raisedBy {α : Type} : Except Raised α → Option (CoreFault × Word16)
  | .ok _ => none
  | .error r => some (r.fault, r.value)

/-- R48, R121. -/
theorem raisedBy_regNamed (n : NameIx) : raisedBy (regNamed n) = badName n := by
  obtain ⟨r, rfl, hok⟩ | ⟨hle, herr⟩ := regNamed_cases n
  · rw [hok, badName, if_neg (Nat.not_le.mpr (regIndex_lt r)), raisedBy]
  · rw [herr, badName, if_pos hle, raisedBy]

/-- R69, R70, R127: of a pair of names the first unknown one is reported. -/
theorem raisedBy_regsNamed (hi lo : NameIx) : raisedBy (regsNamed hi lo) = (badName hi).or (badName lo) := by
  rw [← raisedBy_regNamed hi, ← raisedBy_regNamed lo, regsNamed]
  cases regNamed hi with
  | error r => rfl
  | ok rh => cases regNamed lo <;> rfl

/-- R49, R122. -/
theorem raisedBy_flagNamed (f : FlagIx) : raisedBy (flagNamed f) = badFlag f := by
  obtain ⟨g, rfl, hok⟩ | ⟨hle, herr⟩ := flagNamed_cases f
  · rw [hok, badFlag, if_neg (Nat.not_le.mpr (flagIndex_lt g)), raisedBy]
  · rw [herr, badFlag, if_pos hle, raisedBy]

/-- R85: the eight codes with an entry in the table, and the rest. -/
theorem r8dec_cases (code : Byte) :
    (∃ r, r8dec code = .register r ∧ code.toNat < 8 ∧ code ≠ 6) ∨ (r8dec code = .memoryIndirectHl ∧ code = 6) ∨
      (r8dec code = .invalid ∧ 8 ≤ code.toNat) := by
  unfold r8dec
  split
  case h_7 h6 => exact .inr (.inl ⟨rfl, BitVec.eq_of_toNat_eq h6⟩)
  case h_9 =>
    refine .inr (.inr ⟨rfl, ?_⟩)
    simp only [imp_false] at *
    omega
  all_goals exact .inl ⟨_, rfl, by omega, by rintro rfl; contradiction⟩

/-- R86, R123: `operand_register` accepts every code with an entry in the table, the marker included. -/
theorem raisedBy_operandName (code : Byte) : raisedBy (operandName code) = badCode false code := by
  obtain ⟨r, hd, hlt, -⟩ | ⟨hd, rfl⟩ | ⟨hd, hle⟩ := r8dec_cases code
  · simp [operandName, hd, raisedBy, badCode, hlt]
  · rfl
  · simp [operandName, hd, raisedBy, badCode, hle]

/-- R87, R123: `add` and `addc` accept the codes of plain registers alone. -/
theorem raisedBy_resolve8 (code : Byte) (s : State) : raisedBy (resolve8 code s) = badCode true code := by
  obtain ⟨r, hd, hlt, hne⟩ | ⟨hd, rfl⟩ | ⟨hd, hle⟩ := r8dec_cases code
  · have hplain : ¬(8 ≤ code.toNat ∨ true = true ∧ code = 6) := not_or.mpr ⟨Nat.not_le.mpr hlt, fun h => hne h.2⟩
    rw [resolve8_of_register hd, badCode, if_neg hplain, raisedBy]
  · rfl
  · simp [resolve8, hd, raisedBy, badCode, hle]

/-- R33, R124. -/
theorem raisedBy_readMem (a : Word16) (s : State) : raisedBy (s.readMem a) = badAddress a := by
  by_cases ha : a = 0xFFFF
  · rw [badAddress, if_pos ha, ha, readMem_of_le memCells_le_0xFFFF, raisedBy]
  · rw [badAddress, if_neg ha, readMem_of_lt (toNat_lt_memCells ha), raisedBy]

/-- R34, R124. -/
theorem raisedBy_writeMem (a : Word16) (v : Byte) (s : State) : raisedBy (s.writeMem a v) = badAddress a := by
  by_cases ha : a = 0xFFFF
  · rw [badAddress, if_pos ha, ha, writeMem_of_le memCells_le_0xFFFF, raisedBy]
  · rw [badAddress, if_neg ha, writeMem_of_lt (toNat_lt_memCells ha), raisedBy]

/-! #### How a command ends, by its entry of the fault table -/

/-- The command ends as an entry of the fault table says: with that fault, or, without one, by completing. -/
def EndsAs (i : Instr) (s : State) : Option (CoreFault × Word16) → Prop
  | some (k, v) => FaultsWith i s k v
  | none => ∃ t v, CompletesWith i s t v

/-- The writes of a command leave the responses given before it. -/
theorem Writes.respOut_eq {i : Instr} {s u : State} (h : Writes i s u) : u.respOut = s.respOut := by
  cases h <;> simp

/-- R58: a command that ends in `complete` gives that one response, and keeps the earlier ones and the pending events. -/
theorem completesWith_of_complete {i : Instr} {s u : State} {v : Word16} (h : exec i s = complete v u) :
    CompletesWith i s (u.answer ⟨none, v⟩) v := by
  obtain ⟨u', rsp, hu', he⟩ := exec_cases h
  have ht : u.answer ⟨none, v⟩ = u'.answer rsp := he
  have hresp := congrArg State.respOut ht
  have hcmd := congrArg State.cmdIn ht
  rw [answer_respOut, answer_respOut] at hresp
  rw [answer_cmdIn, answer_cmdIn] at hcmd
  refine completesWith_of_exec_eq h ?_ (hcmd.trans hu'.cmdIn_eq)
  exact (List.append_inj_left' hresp rfl).trans hu'.respOut_eq

/-- A command with nothing to check completes. -/
theorem endsAs_of_complete {i : Instr} {s u : State} {v : Word16} (h : exec i s = complete v u) : EndsAs i s none :=
  ⟨_, v, completesWith_of_complete h⟩

/-- R127: a command with one check, which completes once it is passed, ends as the check says. -/
theorem endsAs_of_check {i : Instr} {s : State} {α : Type} {x : Except Raised α} {next : α → Result}
    {f : Option (CoreFault × Word16)} (hx : raisedBy x = f) (h : exec i s = attempt x s next)
    (hnext : ∀ b, ∃ v u, next b = complete v u) : EndsAs i s f := by
  subst hx
  cases x with
  | error r => exact faultsWith_of_check_error h rfl
  | ok b =>
    obtain ⟨v, u, hb⟩ := hnext b
    exact endsAs_of_complete (h.trans hb)

/-- R120: every command ends as the fault table says. -/
theorem exec_endsAs_faultOf (i : Instr) (s : State) : EndsAs i s (faultOf s i) := by
  cases i with
  | get n | set n _ => exact endsAs_of_check (raisedBy_regNamed n) rfl fun _ => ⟨_, _, rfl⟩
  | getPair hi lo | setPair hi lo _ => exact endsAs_of_check (raisedBy_regsNamed hi lo) rfl fun _ => ⟨_, _, rfl⟩
  | flagShift f | getFlag f | setFlag f _ => exact endsAs_of_check (raisedBy_flagNamed f) rfl fun _ => ⟨_, _, rfl⟩
  | operandRegister code => exact endsAs_of_check (raisedBy_operandName code) rfl fun _ => ⟨_, _, rfl⟩
  | add code | addc code => exact endsAs_of_check (raisedBy_resolve8 code s) rfl fun _ => ⟨_, _, rfl⟩
  | addcHl => exact endsAs_of_check (raisedBy_readMem s.hl s) rfl fun _ => ⟨_, _, rfl⟩
  | memGet a => exact endsAs_of_check (raisedBy_readMem a s) rfl fun _ => ⟨_, _, rfl⟩
  | memSet a v => exact endsAs_of_check (raisedBy_writeMem a v s) rfl fun _ => ⟨_, _, rfl⟩
  | getFlags | addN8 | addHlR16 | addHlSp | addSpE8 | spGet | spSet => exact endsAs_of_complete rfl

theorem faultsWith_of_faultOf {i : Instr} {s : State} {k : CoreFault} {v : Word16} (h : faultOf s i = some (k, v)) :
    FaultsWith i s k v := by
  have hend := exec_endsAs_faultOf i s
  rwa [h] at hend

theorem completesWith_of_faultOf {i : Instr} {s : State} (h : faultOf s i = none) : ∃ t v, CompletesWith i s t v := by
  have hend := exec_endsAs_faultOf i s
  rwa [h] at hend

/-! #### Words with a reserved `op` -/

/-- R54, R125, R126: the step that takes such a word answers `InvalidOperation` with the `op` byte. -/
theorem step_of_reserved {w : CmdWord} {rest : List PortEvent} {s : State} (hq : s.cmdIn = .cmd w :: rest)
    (hop : 0x14 ≤ (opField w).toNat) :
    step s = .next { s with
      cmdIn := rest, respOut := s.respOut ++ [⟨some .invalidOperation, (opField w).setWidth 16⟩] } := by
  rw [step_of_fetch_reserved (fetch_of_cmdIn_cmd hq) ((decode_eq_none_iff w).mpr hop), rejectWord, takeFault_eq]

/-! #### The statements -/

/-- Settles O5: the decoder has no row for such a word, and the step rejects what the decoder does. -/
theorem reservedOpRaisesInvalidOperation : Obligations.ReservedOpRaisesInvalidOperation :=
  ⟨decode_eq_none_iff, fun _ _ _ => step_of_reserved⟩

/-- Settles O49: every command ends as its entry of the table says, and a reserved word is rejected. -/
theorem faultTable : Obligations.FaultTable :=
  ⟨rfl, rfl, rfl, rfl, rfl, rfl, fun _ _ _ _ => faultsWith_of_faultOf, fun _ _ => completesWith_of_faultOf,
    fun _ _ _ => step_of_reserved⟩

/-- R126: the outcome of a command whose response carries a fault is the old state with the response appended. -/
theorem eq_of_exec_fault {i : Instr} {s t : State} {k : CoreFault} {v : Word16} (h : exec i s = .next t)
    (ht : t.respOut = s.respOut ++ [⟨some k, v⟩]) : t = { s with respOut := t.respOut } := by
  cases hf : faultOf s i with
  | some e =>
    have he : exec i s = _ := faultsWith_of_faultOf hf
    rw [h] at he
    cases he
    rfl
  | none =>
    obtain ⟨t', v', he, hr, -⟩ := completesWith_of_faultOf hf
    rw [h] at he
    cases he
    rw [ht] at hr
    simp at hr

/-- Settles O50: a command that faults ends by its entry of the table, and a reserved word is rejected. -/
theorem faultsLeaveTheState : Obligations.FaultsLeaveTheState := by
  intro w rest s t k v hq hstep ht
  cases hd : decode w with
  | some i =>
    rw [step_of_fetch_command (fetch_of_cmdIn_cmd hq) hd] at hstep
    exact eq_of_exec_fault hstep ht
  | none =>
    rw [step_of_reserved hq ((decode_eq_none_iff w).mp hd)] at hstep
    cases hstep
    rfl

end Sys2Proof.Machine
end

section
/-! ### What a step and a run can do (30_encoding.md R58, 70_reset_and_hazards.md R140, R141) -/

namespace Sys2Proof.Machine

open Sys2Proof.Statements

/-! #### The step on each kind of event -/

/-- R141: with no event presented the block waits (log entry 1). -/
theorem step_of_cmdIn_nil {s : State} (hq : s.cmdIn = []) : step s = .next s := by
  simp only [step, fetch, hq, waitForEvent]

/-- R140: the step that takes a reset event leaves the ports alone (log entry 3). -/
theorem step_of_cmdIn_reset {s : State} {rest : List PortEvent} (hq : s.cmdIn = .reset :: rest) :
    step s = .next { State.reset with cmdIn := rest, respOut := s.respOut } := by
  simp only [step, fetch, hq, takeReset]

/-- `StepsTo s t`: the step from `s` ends in `t`, for one of the four reasons a step can. -/
inductive StepsTo (s : State) : State → Prop
  | wait (hq : s.cmdIn = []) : StepsTo s s
  | reset {rest : List PortEvent} (hq : s.cmdIn = .reset :: rest) :
      StepsTo s { State.reset with cmdIn := rest, respOut := s.respOut }
  | command {w : CmdWord} {rest : List PortEvent} {i : Instr} {t : State} (hq : s.cmdIn = .cmd w :: rest)
      (hd : decode w = some i) (he : exec i { s with cmdIn := rest } = .next t) : StepsTo s t
  | reserved {w : CmdWord} {rest : List PortEvent} (hq : s.cmdIn = .cmd w :: rest) (hd : decode w = none) :
      StepsTo s (({ s with cmdIn := rest } : State).answer ⟨some .invalidOperation, (opField w).setWidth 16⟩)

/-- Every step ends in a next state, in one of the four ways. -/
theorem exists_step (s : State) : ∃ t, step s = .next t ∧ StepsTo s t := by
  match hq : s.cmdIn with
  | [] => exact ⟨s, step_of_cmdIn_nil hq, .wait hq⟩
  | .reset :: rest => exact ⟨_, step_of_cmdIn_reset hq, .reset hq⟩
  | .cmd w :: rest =>
    cases hd : decode w with
    | some i =>
      obtain ⟨u, rsp, -, he⟩ := exec_writesThenAnswers i { s with cmdIn := rest }
      exact ⟨_, (step_of_fetch_command (fetch_of_cmdIn_cmd hq) hd).trans he, .command hq hd he⟩
    | none => exact ⟨_, step_of_reserved hq ((decode_eq_none_iff w).mp hd), .reserved hq hd⟩

theorem stepsTo_of_step {s t : State} (h : step s = .next t) : StepsTo s t := by
  obtain ⟨t', ht', hs⟩ := exists_step s
  rw [h] at ht'
  cases ht'
  exact hs

/-! #### Events taken and responses given -/

/-- From `s` to `t` the first `k` pending events were taken (all, if there are fewer), and one response was added for
each command word among them. -/
def TakesAndAnswers (k : Nat) (s t : State) : Prop :=
  t.cmdIn = s.cmdIn.drop k ∧
    ∃ rs, t.respOut = s.respOut ++ rs ∧ rs.length = ((s.cmdIn.take k).filter isCommand).length

theorem TakesAndAnswers.refl (s : State) : TakesAndAnswers 0 s s := ⟨rfl, [], (List.append_nil _).symm, rfl⟩

theorem TakesAndAnswers.trans {j k : Nat} {s u t : State} (h : TakesAndAnswers j s u) (h' : TakesAndAnswers k u t) :
    TakesAndAnswers (j + k) s t := by
  obtain ⟨hq, rs, hr, hlen⟩ := h
  obtain ⟨hq', rs', hr', hlen'⟩ := h'
  refine ⟨by rw [hq', hq, List.drop_drop], rs ++ rs', by rw [hr', hr, List.append_assoc], ?_⟩
  rw [List.length_append, hlen, hlen', hq, List.take_add, List.filter_append, List.length_append]

/-- R58: a command leaves the pending events and gives one response. -/
theorem exec_answers_once {i : Instr} {s t : State} (h : exec i s = .next t) :
    t.cmdIn = s.cmdIn ∧ ∃ rsp, t.respOut = s.respOut ++ [rsp] := by
  obtain ⟨u, rsp, hu, rfl⟩ := exec_cases h
  exact ⟨hu.cmdIn_eq, rsp, by rw [answer_respOut, hu.respOut_eq]⟩

theorem StepsTo.takesAndAnswers {s t : State} (h : StepsTo s t) : TakesAndAnswers 1 s t := by
  cases h with
  | wait hq => exact ⟨by simp [hq], [], by simp [hq]⟩
  | reset hq => exact ⟨by rw [hq]; rfl, [], (List.append_nil _).symm, by rw [hq]; rfl⟩
  | command hq _ he =>
    obtain ⟨hq', rsp, hr⟩ := exec_answers_once he
    exact ⟨by rw [hq', hq]; rfl, [rsp], hr, by rw [hq]; rfl⟩
  | reserved hq => exact ⟨by rw [hq]; rfl, [_], rfl, by rw [hq]; rfl⟩

/-! #### Memory -/

/-- R31: no command but `mem_set` writes memory. -/
theorem Writes.mem_eq {i : Instr} {s u : State} (h : Writes i s u) (hi : ∀ a v, i ≠ .memSet a v) : u.mem = s.mem := by
  cases h with
  | cell a v => exact absurd rfl (hi a v)
  | _ => simp

theorem exec_mem_eq {i : Instr} {s t : State} (h : exec i s = .next t) (hi : ∀ a v, i ≠ .memSet a v) :
    t.mem = s.mem := by
  obtain ⟨u, rsp, hu, rfl⟩ := exec_cases h
  exact hu.mem_eq hi

/-- R47: a word that decodes to `mem_set` is one that may change memory. -/
theorem mayChangeMemory_of_decode_memSet {w : CmdWord} {a : Word16} {v : Byte} (h : decode w = some (.memSet a v)) :
    mayChangeMemory (.cmd w) = true :=
  decide_eq_true (opField_of_decode h)

/-- A step that takes no event that may change memory does not. -/
theorem StepsTo.mem_eq {s t : State} (h : StepsTo s t) (hs : ∀ e ∈ s.cmdIn, mayChangeMemory e = false) :
    t.mem = s.mem := by
  cases h with
  | wait => rfl
  | reset hq => exact absurd (hs .reset (by simp [hq])) (by decide)
  | @command w _ i _ hq hd he =>
    have hi : ∀ a v, i ≠ .memSet a v := by
      rintro a v rfl
      have hw := hs (.cmd w) (by simp [hq])
      rw [mayChangeMemory_of_decode_memSet hd] at hw
      cases hw
    have hmem : t.mem = _ := exec_mem_eq he hi
    exact hmem
  | reserved => rfl

/-- R30, R34: `mem_set` checks its address before it writes, so it keeps the canonical form, and no other command writes
memory. -/
theorem exec_inv {i : Instr} {s t : State} (h : exec i s = .next t) (hs : s.Inv) : t.Inv := by
  by_cases hi : ∃ a v, i = .memSet a v
  · obtain ⟨a, v, rfl⟩ := hi
    obtain ⟨u, hu, he⟩ | ⟨r, -, he⟩ := attempt_cases (x := s.writeMem a v) h
    · cases he
      exact (writeMem_wf hu hs : u.Inv)
    · cases he
      exact hs
  · simp only [not_exists] at hi
    rwa [State.Inv, exec_mem_eq h hi]

/-- Settles O59: the empty list is canonical. -/
theorem resetMeetsTheInvariant : Obligations.ResetMeetsTheInvariant := rfl

/-- Settles O60, way by way that a step can end. -/
theorem stepKeepsTheInvariant : Obligations.StepKeepsTheInvariant := by
  intro s t hs h
  cases stepsTo_of_step h with
  | wait => exact hs
  | reset => exact resetMeetsTheInvariant
  | command _ _ he => exact exec_inv he hs
  | reserved => exact hs

/-! #### Runs -/

theorem run_succ_of_step {s u : State} (h : step s = .next u) (k : Nat) :
    Sys2Proof.core.run (k + 1) s = Sys2Proof.core.run k u := by
  simp only [Host.Core.run, show Sys2Proof.core.step s = .next u from h]

/-- No run stops on the way. -/
theorem exists_run (k : Nat) (s : State) : ∃ t, Sys2Proof.core.run k s = .next t := by
  induction k generalizing s with
  | zero => exact ⟨s, rfl⟩
  | succ k ih =>
    obtain ⟨u, hu, -⟩ := exists_step s
    obtain ⟨t, ht⟩ := ih u
    exact ⟨t, (run_succ_of_step hu k).trans ht⟩

/-- What holds of the empty run, and of a run when it holds of the run after its first step, holds of every run. -/
theorem run_induction {P : Nat → State → State → Prop} (zero : ∀ s, P 0 s s)
    (succ : ∀ {k : Nat} {s u t : State}, StepsTo s u → P k u t → P (k + 1) s t) {k : Nat} {s t : State}
    (h : Sys2Proof.core.run k s = .next t) : P k s t := by
  induction k generalizing s with
  | zero =>
    cases h
    exact zero _
  | succ k ih =>
    obtain ⟨u, hu, hstep⟩ := exists_step s
    rw [run_succ_of_step hu] at h
    exact succ hstep (ih h)

theorem run_takesAndAnswers {k : Nat} {s t : State} (h : Sys2Proof.core.run k s = .next t) : TakesAndAnswers k s t := by
  refine run_induction .refl (fun hstep ht => ?_) h
  rw [Nat.add_comm]
  exact hstep.takesAndAnswers.trans ht

/-- A run goes on from where a shorter one ends. -/
theorem run_add {j k : Nat} {s u : State} (h : Sys2Proof.core.run j s = .next u) :
    Sys2Proof.core.run (j + k) s = Sys2Proof.core.run k u := by
  induction j generalizing s with
  | zero =>
    cases h
    rw [Nat.zero_add]
  | succ j ih =>
    obtain ⟨v, hv, -⟩ := exists_step s
    rw [run_succ_of_step hv] at h
    rw [Nat.succ_add, run_succ_of_step hv, ih h]

/-- Settles O56: no run stops, and event by event each step takes one and answers it if it is a command. -/
theorem runsAnswerEachCommandOnce : Obligations.RunsAnswerEachCommandOnce := by
  intro k s
  obtain ⟨t, ht⟩ := exists_run k s
  obtain ⟨hq, rs, hr, hlen⟩ := run_takesAndAnswers ht
  exact ⟨t, rs, ht, hq, hr, hlen⟩

/-- Settles O57, by induction on the run: the events left after a step are among those before it. -/
theorem runsWithoutMemSetKeepMemory : Obligations.RunsWithoutMemSetKeepMemory := by
  intro k s t hs h
  refine run_induction (P := fun _ s t => (∀ e ∈ s.cmdIn, mayChangeMemory e = false) → t.mem = s.mem)
    (fun _ _ => rfl) (fun {_ s u _} hstep ih hs => ?_) h hs
  obtain ⟨hq, -⟩ := hstep.takesAndAnswers
  rw [ih fun e he => hs e (List.mem_of_mem_drop (hq ▸ he)), hstep.mem_eq hs]

/-- Settles O58: the run goes on from the state on the way, and keeps the responses given there. -/
theorem safeRunsAreSafeAllTheWay : Obligations.SafeRunsAreSafeAllTheWay := by
  rintro j k s t u ⟨ht, hsafe⟩ hjk hu
  obtain ⟨m, rfl⟩ := Nat.exists_eq_add_of_le hjk
  rw [run_add hu] at ht
  obtain ⟨-, rs, hr, -⟩ := run_takesAndAnswers ht
  rw [State.faulted, hr, List.any_append, Bool.or_eq_false_iff] at hsafe
  exact hsafe.1

/-! #### No event, and a reset event -/

/-- Settles O53. -/
theorem stepWaitsWithoutAnEvent : Obligations.StepWaitsWithoutAnEvent := fun _ => step_of_cmdIn_nil

/-- Settles O55: the block is as after reset, and the ports stay. -/
theorem resetEventZeroesTheState : Obligations.ResetEventZeroesTheState := by
  intro rest s hq
  refine ⟨_, step_of_cmdIn_reset hq, fun r => ?_, rfl, fun a ha => readMem_reset ha, rfl, rfl⟩
  cases r <;> rfl

end Sys2Proof.Machine
end

section
/-! ### The laws of the register file and of the flags (40_register_file.md R65, R66, R71; 41_flags.md R81) -/

namespace Sys2Proof.Machine

open Sys2Proof.Statements

/-! #### The pair synthesizer -/

/-- R65: the two bytes stand side by side. -/
theorem pair_eq_append (hi lo : Byte) : pair hi lo = hi ++ lo := by
  apply BitVec.eq_of_getLsbD_eq
  intro k hk
  rw [BitVec.getLsbD_append]
  interval_cases k <;> simp [pair]

theorem highByte_pair (hi lo : Byte) : highByte (pair hi lo) = hi := by
  rw [pair_eq_append]
  exact BitVec.extractLsb'_append_eq_left

theorem lowByte_pair (hi lo : Byte) : lowByte (pair hi lo) = lo := by
  rw [pair_eq_append]
  exact BitVec.extractLsb'_append_eq_right

/-- Masking a pair masks each of its bytes. -/
theorem pair_and_pair (hi lo mhi mlo : Byte) : pair hi lo &&& pair mhi mlo = pair (hi &&& mhi) (lo &&& mlo) := by
  simp only [pair_eq_append]
  exact BitVec.and_append

theorem toNat_lowByte (v : Word16) : (lowByte v).toNat = v.toNat % 256 := BitVec.extractLsb'_toNat 0 8 v

theorem toNat_highByte (v : Word16) : (highByte v).toNat = v.toNat / 256 := by
  have hlt : v.toNat / 256 < 256 := Nat.div_lt_of_lt_mul v.isLt
  rw [highByte, BitVec.extractLsb'_toNat, Nat.shiftRight_eq_div_pow]
  exact Nat.mod_eq_of_lt hlt

/-- R65, R66: a pair is its high byte times 256 plus its low byte, as its quotient and remainder by 256 are the two. -/
theorem toNat_pair (hi lo : Byte) : (pair hi lo).toNat = hi.toNat * 256 + lo.toNat := by
  have hdiv := toNat_highByte (pair hi lo)
  have hmod := toNat_lowByte (pair hi lo)
  rw [highByte_pair] at hdiv
  rw [lowByte_pair] at hmod
  omega

/-- Settles O8. -/
theorem pairAndSplitAreInverse : Obligations.PairAndSplitAreInverse :=
  ⟨toNat_pair, fun v => ⟨toNat_highByte v, toNat_lowByte v⟩, pair_highByte_lowByte,
    fun hi lo => ⟨highByte_pair hi lo, lowByte_pair hi lo⟩⟩

/-! #### Writes and reads of registers -/

/-- R13, R70, R71: the two bytes a pair of registers keeps of a word are those its round trip returns. -/
theorem pair_kept_eq_pairReadBack {hi lo : Reg} (hne : hi ≠ lo) (v : Word16) :
    pair (kept hi (highByte v)) (kept lo (lowByte v)) = pairReadBack hi lo v := by
  have hmask (mhi mlo : Byte) : v &&& pair mhi mlo = pair (highByte v &&& mhi) (lowByte v &&& mlo) := by
    rw [← pair_and_pair, pair_highByte_lowByte]
  rw [pairReadBack, if_neg hne]
  by_cases hlo : lo = .F
  · have hhi : hi ≠ .F := hlo ▸ hne
    rw [kept, if_neg hhi, kept, if_pos hlo, if_pos hlo, show (0xFFF0 : Word16) = pair 0xFF 0xF0 from rfl, hmask,
      byte_and_full]
  · rw [if_neg hlo, kept, kept, if_neg hlo]
    split_ifs
    · rw [show (0xF0FF : Word16) = pair 0xF0 0xFF from rfl, hmask, byte_and_full]
    · exact pair_highByte_lowByte v

/-- A command that is known to complete in a state with some property has it in any state it ends in. -/
theorem of_completesWith_of_exec {i : Instr} {s t : State} {v : Word16} {P : State → Prop}
    (h : ∃ u, CompletesWith i s u v ∧ P u) (ht : exec i s = .next t) : P t := by
  obtain ⟨u, ⟨hu, -⟩, hP⟩ := h
  rw [ht] at hu
  cases hu
  exact hP

/-- What `set` leaves of the state (R68). -/
theorem exec_set_next {r : Reg} {v : Byte} {s t : State} (h : exec (.set (regIndex r) v) s = .next t) :
    t.readReg r = kept r v ∧ RegsSameBut [r] s t ∧ t.sp = s.sp ∧ t.mem = s.mem := by
  obtain ⟨-, hset, -⟩ := setWritesTheRegister
  exact of_completesWith_of_exec (hset r v s) h

/-- What `set_pair` leaves of the state (R70). -/
theorem exec_setPair_next {hi lo : Reg} {v : Word16} {s t : State}
    (h : exec (.setPair (regIndex hi) (regIndex lo) v) s = .next t) :
    (hi ≠ lo → t.readReg hi = kept hi (highByte v)) ∧ t.readReg lo = kept lo (lowByte v) ∧
      RegsSameBut [hi, lo] s t ∧ t.sp = s.sp ∧ t.mem = s.mem := by
  obtain ⟨-, hset, -⟩ := setPairWritesBothRegisters
  exact of_completesWith_of_exec (hset hi lo v s) h

/-- R70, R71: after `set_pair` the two registers, read as a pair, are what the round trip returns. -/
theorem pair_readReg_of_setPair {hi lo : Reg} {v : Word16} {s t : State}
    (h : exec (.setPair (regIndex hi) (regIndex lo) v) s = .next t) :
    pair (t.readReg hi) (t.readReg lo) = pairReadBack hi lo v := by
  obtain ⟨hhi, hlo, -⟩ := exec_setPair_next h
  by_cases heq : hi = lo
  · subst heq
    rw [hlo, pairReadBack, if_pos rfl, kept]
    split_ifs <;> rfl
  · rw [hhi heq, hlo, pair_kept_eq_pairReadBack heq]

/-- A command that checks its operand and answers changes nothing but the responses. -/
theorem eq_of_attempt_complete {α : Type} {x : Except Raised α} {f : α → Word16} {s t : State}
    (h : attempt x s (fun v => complete (f v) s) = .next t) : t = { s with respOut := t.respOut } := by
  obtain ⟨v, -, he⟩ | ⟨r, -, he⟩ := attempt_cases h <;> cases he <;> rfl

/-- Settles O23: a write leaves what the register keeps of the byte, for the next read to answer. -/
theorem registerRoundTrips : Obligations.RegisterRoundTrips := by
  refine ⟨fun r v s t h => ?_, fun hi lo v s t h => ?_, fun r v s t h => ?_, fun hi lo v s t h => ?_, ?_⟩
  · obtain ⟨hr, -⟩ := exec_set_next h
    rw [← hr]
    exact exec_get_regIndex r t
  · rw [← pair_readReg_of_setPair h]
    exact exec_getPair_regIndex hi lo t
  · obtain ⟨-, hframe⟩ := exec_set_next h
    exact hframe
  · obtain ⟨-, -, hframe⟩ := exec_setPair_next h
    exact hframe
  · rintro _ s t (⟨n, rfl⟩ | ⟨n, m, rfl⟩) h
    · exact eq_of_attempt_complete h
    · exact eq_of_attempt_complete h

/-! #### Writes and reads of flags -/

/-- R75: the encoded upper four bits of a byte are the byte without its low nibble. -/
theorem flagEnc_getLsbD (x : Byte) :
    flagEnc (x.getLsbD 7) (x.getLsbD 6) (x.getLsbD 5) (x.getLsbD 4) = x &&& 0xF0 := by
  apply BitVec.eq_of_getLsbD_eq
  intro k hk
  interval_cases k <;> simp [flagEnc]

/-- What `set_flag` leaves of F (R80). -/
theorem exec_setFlag_next {g : Flag} {b : Bool} {s t : State} (h : exec (.setFlag (flagIndex g) b) s = .next t) :
    (t.readReg .F).getLsbD (position g) = b ∧
      ∀ g', g' ≠ g → (t.readReg .F).getLsbD (position g') = (s.readReg .F).getLsbD (position g') := by
  obtain ⟨-, hset, -⟩ := setFlagChangesOneFlag
  obtain ⟨-, hbit, hother, -⟩ := of_completesWith_of_exec (hset g b s) h
  exact ⟨hbit, hother⟩

/-- R77, R78: a flag's bit of F is the bit of the answer of `get_flags` that `flag_shift` answers. -/
theorem getLsbD_setWidth_position (x : Byte) (g : Flag) :
    (x.setWidth 16).getLsbD (BitVec.ofNat 16 (position g)).toNat = x.getLsbD (position g) := by
  cases g <;> simp [position]

/-- Settles O29, law by law. -/
theorem flagLaws : Obligations.FlagLaws := by
  refine ⟨fun g b s t h => ?_, readReg_F_and_low, fun s => (exec_get_regIndex .F s).symm, fun g s => ?_, fun s => ?_⟩
  · obtain ⟨hbit, hother⟩ := exec_setFlag_next h
    rw [← hbit]
    exact ⟨exec_getFlag_flagIndex g t, hother⟩
  · refine ⟨_, _, _, exec_flagShift_flagIndex g s, complete_eq _ s, exec_getFlag_flagIndex g s, ?_⟩
    rw [getLsbD_setWidth_position]
    rfl
  · rw [flagEnc_getLsbD, and_high_of_and_low_eq_zero (readReg_F_and_low s)]

end Sys2Proof.Machine
end

section
/-! ### The arithmetic laws of the additions (42_operand_decode.md R88, 43_add8.md R93, R96, 44_add16.md R105, R106) -/

namespace Sys2Proof.Machine

open Sys2Proof.Statements

/-! #### The negative branch of the stack-pointer addition (R105) -/

/-- Bit 7 of a byte says that it is 128 or more. -/
theorem getLsbD_seven (e : Byte) : e.getLsbD 7 = decide (128 ≤ e.toNat) :=
  (BitVec.msb_eq_getLsbD_last e).symm.trans (BitVec.msb_eq_decide e)

theorem le_toNat_of_getLsbD_seven {e : Byte} (he : e.getLsbD 7 = true) : 128 ≤ e.toNat := by
  rwa [getLsbD_seven, decide_eq_true_eq] at he

/-- R105: the sign bits of a negative immediate add 0xFF00. -/
theorem toNat_res_spAddNeg (sp : Word16) {e : Byte} (he : e.getLsbD 7 = true) :
    (spAddNeg sp e).res.toNat = (sp.toNat + (0xFF00 + e.toNat)) % 65536 := by
  have hext : (e.signExtend 16).toNat = 0xFF00 + e.toNat := by
    rw [BitVec.toNat_signExtend, BitVec.toNat_setWidth_of_le (by decide), BitVec.msb_eq_getLsbD_last, he, if_pos rfl]
    exact Nat.add_comm _ _
  change (sp + e.signExtend 16).toNat = _
  rw [BitVec.toNat_add, hext]

/-- R105: the half-carry compares the low nibbles of result and operand. -/
theorem hc_spAddNeg (sp : Word16) (e : Byte) :
    (spAddNeg sp e).hc = decide ((spAddNeg sp e).res.toNat % 16 ≤ sp.toNat % 16) := by
  simp only [spAddNeg, BitVec.le_def, BitVec.extractLsb'_toNat, Nat.shiftRight_zero, Nat.reducePow]

/-- R105: the carry compares the low bytes of result and operand. -/
theorem cy_spAddNeg (sp : Word16) (e : Byte) :
    (spAddNeg sp e).cy = decide ((spAddNeg sp e).res.toNat % 256 ≤ sp.toNat % 256) := by
  simp only [spAddNeg, BitVec.le_def, BitVec.extractLsb'_toNat, Nat.shiftRight_zero, Nat.reducePow]

/-- Settles O15: 0xFF00 adds nothing to the low byte, so a low part of the result that is no larger than the operand's
is one that wrapped, or one to which the immediate adds 0; the low byte of a negative immediate is not 0. -/
theorem negativeStackPointerAdder : Obligations.NegativeStackPointerAdder := by
  intro sp e he
  have hres := toNat_res_spAddNeg sp he
  have hle := le_toNat_of_getLsbD_seven he
  have hlt := e.isLt
  refine ⟨hres, hc_spAddNeg sp e, cy_spAddNeg sp e, ?_, ?_⟩
  · rw [cy_spAddNeg, decide_eq_decide, hres]
    omega
  · rw [hc_spAddNeg, decide_eq_decide, hres]
    omega

/-! #### The two settings of ADC_WRAP (R93, log entry 6) -/

/-- ADC_WRAP true: the operand takes the carry-in first, modulo 256. -/
theorem addcSum_wrap (a b : Byte) (ci : Bool) :
    (addcSum true a b ci).res.toNat = (a.toNat + (b.toNat + ci.toNat) % 256) % 256 ∧
      (addcSum true a b ci).cy = decide (255 < a.toNat + (b.toNat + ci.toNat) % 256) := by
  obtain ⟨hres, -, hcy⟩ := eightBitAdder a (b + (BitVec.ofBool ci).setWidth 8)
  rw [BitVec.toNat_add, BitVec.toNat_setWidth_of_le (by decide), BitVec.toNat_ofBool] at hres hcy
  exact ⟨hres, hcy⟩

/-- A sum of two bytes and a carry fits in ten bits. -/
theorem toNat_three_term_sum (a b : Byte) (ci : Bool) :
    (a.setWidth 10 + b.setWidth 10 + (BitVec.ofBool ci).setWidth 10).toNat = a.toNat + b.toNat + ci.toNat := by
  have ha := a.isLt
  have hb := b.isLt
  have hci := ci.toNat_le
  simp only [BitVec.toNat_add, BitVec.toNat_setWidth, BitVec.toNat_ofBool]
  omega

/-- ADC_WRAP false: the sum of the three terms. -/
theorem addcSum_threeTerm (a b : Byte) (ci : Bool) :
    (addcSum false a b ci).res.toNat = (a.toNat + b.toNat + ci.toNat) % 256 ∧
      (addcSum false a b ci).cy = decide (255 < a.toNat + b.toNat + ci.toNat) := by
  rw [← toNat_three_term_sum]
  exact ⟨BitVec.extractLsb'_toNat 0 8 _, rfl⟩

/-- Settles O16: operand and carry-in add to 256 or more for 0xFF and 1 alone, where the wrapped operand is 0. -/
theorem adcWrapMattersOnlyForCarryOfFF : Obligations.AdcWrapMattersOnlyForCarryOfFF := by
  intro a b ci
  obtain ⟨hres, hcy⟩ := addcSum_wrap a b ci
  obtain ⟨hres', hcy'⟩ := addcSum_threeTerm a b ci
  refine ⟨BitVec.eq_of_toNat_eq ?_, rfl, fun hne => ?_, ?_⟩
  · rw [hres, hres']
    omega
  · have hlt : b.toNat + ci.toNat < 256 := by
      have hb := b.isLt
      have hci := ci.toNat_le
      have hne' : ¬(b.toNat = 255 ∧ ci.toNat = 1) := fun ⟨hb, hci⟩ =>
        hne ⟨BitVec.eq_of_toNat_eq hb, Bool.toNat_eq_one.mp hci⟩
      omega
    rw [hcy, hcy', Nat.mod_eq_of_lt hlt, Nat.add_assoc]
  · rintro rfl rfl
    have ha := a.isLt
    rw [hcy, hcy', decide_eq_false_iff_not, decide_eq_true_iff]
    change ¬255 < a.toNat + (255 + 1) % 256 ∧ 255 < a.toNat + 255 + 1
    omega

/-! #### The flags of a sum, one by one (R75, R91) -/

theorem sumFlags_getLsbD_HC {w : Nat} (o : Sum w) : (sumFlags o).getLsbD 5 = o.hc := by
  have hHC : ∀ z s hc c : Bool, (flagEnc z s hc c).getLsbD 5 = hc := by decide
  exact hHC _ _ _ _

theorem sumFlags_getLsbD_C {w : Nat} (o : Sum w) : (sumFlags o).getLsbD 4 = o.cy := by
  have hC : ∀ z s hc c : Bool, (flagEnc z s hc c).getLsbD 4 = c := by decide
  exact hC _ _ _ _

theorem sumFlags_eq {w : Nat} (o : Sum w) : sumFlags o = flagEnc (decide (o.res.toNat = 0)) false o.hc o.cy := by
  have hZ : ∀ z s hc c : Bool, (flagEnc z s hc c).getLsbD 7 = z := by decide
  rw [← sumFlags_getLsbD_Z, sumFlags, hZ]

/-! #### 8-bit additions (R88, R96) -/

/-- R93: the sum of `addc` in integers; the half-carry does not see the carry-in. -/
theorem addcRule_toNat (a b ci : Byte) :
    (addcRule a b ci).res.toNat = (a.toNat + (b.toNat + ci.toNat) % 256) % 256 ∧
      (addcRule a b ci).hc = decide (15 < a.toNat % 16 + b.toNat % 16) ∧
      (addcRule a b ci).cy = decide (255 < a.toNat + (b.toNat + ci.toNat) % 256) := by
  obtain ⟨hres, -, hcy⟩ := eightBitAdder a (b + ci)
  rw [BitVec.toNat_add] at hres hcy
  exact ⟨hres, halfCarry8_eq a b, hcy⟩

/-- Settles O37: each command adds its checked operand into A, and the sum is known in integers. -/
theorem eightBitArithmeticLaws : Obligations.EightBitArithmeticLaws := by
  constructor
  · intro i b s hi
    have hadd : AddsToA i s (add8 s.a b) := by
      obtain ⟨code, rfl, hb⟩ | rfl := hi
      · exact addsToA_of_exec_eq (exec_add hb)
      · exact addsToA_of_exec_eq rfl
    obtain ⟨t, hc, hA, (hF : t.readReg .F = _), -⟩ := hadd
    obtain ⟨hres, hhc, hcy⟩ := eightBitAdder s.a b
    have ha := s.a.isLt
    have hb := b.isLt
    refine ⟨t, hc, by rw [hA, hres], by rw [hF, sumFlags_eq, hA, hhc, hcy]; rfl, ?_, ?_⟩
    · rw [hF, sumFlags_getLsbD_Z, sumFlags_getLsbD_C, hres, hcy, decide_eq_true_iff, decide_eq_true_iff]
      omega
    · have hzero (x : Byte) : x = 0 ↔ x.toNat = 0 := BitVec.toNat_eq
      rw [hF, sumFlags_getLsbD_Z, sumFlags_getLsbD_C, hres, hcy, decide_eq_true_iff, decide_eq_false_iff_not, hzero,
        hzero]
      omega
  · intro i b s hi
    have hadd : AddsToA i s (addcRule s.a b (carryIn s)) := by
      obtain ⟨code, rfl, hb⟩ | ⟨rfl, hb⟩ := hi
      · exact addsToA_of_exec_eq (exec_addc hb)
      · exact addsToA_of_exec_eq (exec_addcHl hb)
    obtain ⟨t, hc, hA, (hF : t.readReg .F = _), -⟩ := hadd
    obtain ⟨hres, hhc, hcy⟩ := addcRule_toNat s.a b (carryIn s)
    exact ⟨t, hc, by rw [hA, hres], by rw [hF, sumFlags_eq, hA, hhc, hcy]; rfl⟩

/-- Settles O36: code 7 resolves to A, and two equal nibbles add to more than 15 when one is above 7. -/
theorem accumulatorAsItsOwnOperand : Obligations.AccumulatorAsItsOwnOperand := by
  intro s
  have hb : resolve8 7 s = .ok s.a := rfl
  have hnibble : decide (15 < s.a.toNat % 16 + s.a.toNat % 16) = decide (7 < s.a.toNat % 16) := by
    rw [decide_eq_decide]
    omega
  constructor
  · obtain ⟨t, hc, hA, (hF : t.readReg .F = _), -⟩ := addsToA_of_exec_eq (exec_add hb)
    obtain ⟨hres, hhc, -⟩ := eightBitAdder s.a s.a
    exact ⟨t, hc, by rw [hA, hres, Nat.two_mul], by rw [hF, sumFlags_getLsbD_HC, hhc, hnibble]⟩
  · obtain ⟨t, hc, hA, (hF : t.readReg .F = _), -⟩ := addsToA_of_exec_eq (exec_addc hb)
    obtain ⟨hres, hhc, -⟩ := addcRule_toNat s.a s.a (carryIn s)
    exact ⟨t, hc, by rw [hA, hres], by rw [hF, sumFlags_getLsbD_HC, hhc, hnibble]⟩

/-! #### 16-bit additions (R106) -/

/-- R103, R106: whichever branch bit 7 of the immediate selects, the result is the signed sum modulo 65536. -/
theorem toNat_res_spAdd (sp : Word16) (e : Byte) :
    ((spAdd sp e).res.toNat : Int) = ((sp.toNat : Int) + e.toInt) % 65536 := by
  have hsign : e.toInt = if e.getLsbD 7 = true then (e.toNat : Int) - 256 else e.toNat := by
    rw [BitVec.toInt_eq_msb_cond, BitVec.msb_eq_getLsbD_last]
    rfl
  cases he : e.getLsbD 7 with
  | false =>
    obtain ⟨hres, -⟩ := nonNegativeStackPointerAdder sp e he
    rw [spAdd_of_nonneg he, hres, hsign, he, if_neg (by decide)]
    omega
  | true =>
    rw [spAdd_of_neg he, toNat_res_spAddNeg sp he, hsign, he, if_pos rfl]
    omega

/-- Settles O41: the sums of the two HL commands and of the SP command are known in integers, and A is no destination. -/
theorem sixteenBitArithmeticLaws : Obligations.SixteenBitArithmeticLaws := by
  constructor
  · intro i v s hi
    have hadd : AddsToHl i s (add16 (pair s.h s.l) v) := by
      obtain rfl | ⟨rfl, rfl⟩ := hi
      · exact addsToHl_of_exec_eq rfl
      · exact addsToHl_of_exec_eq rfl
    obtain ⟨t, hc, hH, hL, (hF : t.readReg .F = _), hregs, -⟩ := hadd
    obtain ⟨hres, -, hcy⟩ := sixteenBitAdder (pair s.h s.l) v
    have hhl := (pair s.h s.l).isLt
    have hv := v.isLt
    refine ⟨t, hc, by rw [hH, hL, pair_highByte_lowByte, hres], by rw [hF, sumFlags_getLsbD_C, hcy]; rfl, ?_,
      hregs .A (by decide)⟩
    rw [hF, sumFlags_getLsbD_Z, sumFlags_getLsbD_C, hres, hcy, decide_eq_true_iff, decide_eq_true_iff]
    omega
  · intro e s
    obtain ⟨t, hc, hsp, -, hregs, -⟩ := addsToSp_of_exec_eq (i := .addSpE8 e) (s := s) rfl
    exact ⟨t, hc, by rw [hsp, toNat_res_spAdd], hregs .A (by decide)⟩

end Sys2Proof.Machine
end

section
/-! ### Legal commands (70_reset_and_hazards.md R149) and the cell at 0xFFFF (20_memory.md R44) -/

namespace Sys2Proof.Machine

open Sys2Proof.Statements

/-! #### Legal operands raise no fault (R54, R120) -/

theorem badName_of_legal {n : NameIx} (h : legalName n = true) : badName n = none :=
  if_neg (Nat.not_le.mpr (of_decide_eq_true h))

theorem badFlag_of_legal {f : FlagIx} (h : legalFlag f = true) : badFlag f = none :=
  if_neg (Nat.not_le.mpr (of_decide_eq_true h))

theorem badCode_of_legal {code : Byte} (h : legalCode code = true) : badCode false code = none := by
  have hlt : code.toNat < 8 := of_decide_eq_true h
  exact if_neg (not_or.mpr ⟨Nat.not_le.mpr hlt, nofun⟩)

theorem badCode_of_legalRegister {code : Byte} (h : legalRegisterCode code = true) : badCode true code = none := by
  simp only [legalRegisterCode, Bool.and_eq_true, decide_eq_true_eq, bne_iff_ne] at h
  obtain ⟨hlt, hne⟩ := h
  exact if_neg (not_or.mpr ⟨Nat.not_le.mpr hlt, fun ⟨_, h6⟩ => hne (congrArg BitVec.toNat h6)⟩)

theorem badAddress_of_ne {a : Word16} (h : a ≠ 0xFFFF) : badAddress a = none := if_neg h

/-- R149: a well-formed command that forms no address 0xFFFF has no entry in the fault table. -/
theorem faultOf_of_wellFormed {i : Instr} {s : State} (hi : i.wellFormed = true)
    (hhl : i = .addcHl → pair s.h s.l ≠ 0xFFFF)
    (haddr : ∀ a, (i = .memGet a ∨ ∃ v, i = .memSet a v) → a ≠ 0xFFFF) : faultOf s i = none := by
  cases i with
  | get | set => exact badName_of_legal hi
  | getPair hi' lo | setPair hi' lo =>
    obtain ⟨hhi, hlo⟩ : legalName hi' = true ∧ legalName lo = true := by simpa [Instr.wellFormed] using hi
    rw [faultOf, badName_of_legal hhi, badName_of_legal hlo, Option.or_none]
  | flagShift | getFlag | setFlag => exact badFlag_of_legal hi
  | operandRegister => exact badCode_of_legal hi
  | add | addc => exact badCode_of_legalRegister hi
  | addcHl => exact badAddress_of_ne (hhl rfl)
  | memGet a => exact badAddress_of_ne (haddr a (.inl rfl))
  | memSet a v => exact badAddress_of_ne (haddr a (.inr ⟨v, rfl⟩))
  | getFlags | addN8 | addHlR16 | addHlSp | addSpE8 | spGet | spSet => rfl

/-- Settles O51: a command without an entry in the fault table completes. -/
theorem legalCommandsNeverFault : Obligations.LegalCommandsNeverFault :=
  fun _ _ hi hhl haddr => completesWith_of_faultOf (faultOf_of_wellFormed hi hhl haddr)

/-! #### Memory blocks of any size (R33, R34) -/

section Blocks
variable {cells : Nat} {a : Word16} (m : Memory)

theorem memory_read_of_lt (ha : a.toNat < cells) : Memory.read cells m a = .ok (m.lookup a.toNat) :=
  if_neg (Nat.not_le.mpr ha)

theorem memory_read_of_le (ha : cells ≤ a.toNat) : Memory.read cells m a = .error ⟨.memoryBounds, a⟩ := if_pos ha

theorem memory_write_of_lt (ha : a.toNat < cells) (v : Byte) :
    Memory.write cells m a v = .ok (m.update a.toNat v) :=
  if_neg (Nat.not_le.mpr ha)

theorem memory_write_of_le (ha : cells ≤ a.toNat) (v : Byte) :
    Memory.write cells m a v = .error ⟨.memoryBounds, a⟩ := if_pos ha

end Blocks

/-- Settles O18: an address below 65535 lies in both blocks, and 0xFFFF in the larger one alone. -/
theorem missingCellOnlyAffectsItsAddress : Obligations.MissingCellOnlyAffectsItsAddress := by
  refine ⟨fun m a ha => ?_, fun m a v ha => ?_, fun m v => ⟨memory_read_of_le m (by decide),
    memory_write_of_le m (by decide) v, ⟨_, memory_read_of_lt m (by decide)⟩, _, memory_write_of_lt m (by decide) v⟩⟩
  · have hlt : a.toNat < 65535 := toNat_lt_memCells ha
    rw [memory_read_of_lt m hlt, memory_read_of_lt m a.isLt]
  · have hlt : a.toNat < 65535 := toNat_lt_memCells ha
    rw [memory_write_of_lt m hlt, memory_write_of_lt m a.isLt]

end Sys2Proof.Machine
end
